-- ==== Sys2Proof/Word.lean ====
section
/-! DEFINITION. The one word type of the framer and the sequences built from it.

Every quantity the framer handles is a single unsigned byte, compared or copied whole (R7, R32); lengths and cursors
are natural numbers (R6, R7, R57). The reserved delimiter is `0x00#8` (R50), the full-block code `0xFF#8` (R52). -/

namespace Sys2Proof

/-- A byte: an 8-bit unsigned value (R7). -/
abbrev Byte := BitVec 8

/-- A finite sequence of bytes, index 0 first (R7). -/
abbrev Bytes := List Byte

end Sys2Proof
end

