-- ==== Sys2Proof/Config.lean ====
section
/-! DEFINITION. What is fixed for one instance of the framer (R5): the open parameters and the two optional switches of
92_eei_decisions.md, as plain data, and the instance that `State.reset` belongs to, whose parameters are free.

`State` carries the parameters (log 1), so a statement about every state is a statement about every instance. -/

namespace Sys2Proof

/-- `TYPE_IDS`: the four reserved packet-type identifiers (R5, R60). -/
structure TypeIds where
  imuSample  : Byte
  status     : Byte
  deviceInfo : Byte
  command    : Byte
  deriving DecidableEq, Repr

/-- The constraint of R5 on `TYPE_IDS`: all four non-zero and pairwise distinct. -/
abbrev TypeIds.ok (ids : TypeIds) : Prop :=
  0x00#8 ∉ [ids.imuSample, ids.status, ids.deviceInfo, ids.command] ∧
    [ids.imuSample, ids.status, ids.deviceInfo, ids.command].Nodup

/-- The parameters of an instance (R5) and the two optional switches collected at the end of 92_eei_decisions.md.
`PORT_BINDING`, on which no rule depends, is left out (log 16). -/
structure Params where
  /-- `RX_CAP`: capacity in bytes of the receive buffer. -/
  rxCap : Nat
  /-- `TX_MAX_PAYLOAD`: longest payload that `TXP` and `ENC` accept. -/
  txMaxPayload : Nat
  /-- `TYPE_IDS`. -/
  typeIds : TypeIds
  /-- `RX_ACCEPT`, as the list of the type-ids the receive side recognises (log 3). -/
  rxAccept : Bytes
  /-- `ENC_CLOSE_AFTER_FULL`: the alternative reading of D6, default false (log 4). -/
  encCloseAfterFull : Bool
  /-- `SHORT_GOES_IDLE`: the alternative reading of D10, default false (log 4). -/
  shortGoesIdle : Bool
  deriving DecidableEq, Repr

/-- `RX_ACCEPT(t)` (R5). -/
def Params.accepts (p : Params) (t : Byte) : Bool := p.rxAccept.contains t

/-- The constraints of R5 on the parameters. -/
abbrev Params.ok (p : Params) : Prop := 2 ≤ p.rxCap ∧ p.typeIds.ok

/-- The further constraint of R5 on the device-side instance: it accepts the command type-id. -/
abbrev Params.deviceSide (p : Params) : Prop := p.accepts p.typeIds.command = true

/-- `RX_CAP` less 2: any natural number (D2, log 2). -/
opaque Config.rxCapLessTwo : Nat

/-- `TX_MAX_PAYLOAD`: any natural number (D3, log 2). -/
opaque Config.txMaxPayload : Nat

/-- The choice of four distinct non-zero type-ids (D4, log 2): the first four places of any permutation of the 255
non-zero byte values. -/
opaque Config.typeIdOrder : Equiv.Perm (Fin 255)

/-- `RX_ACCEPT` of the instance: any list of bytes (D5, log 2). -/
opaque Config.rxAccept : Bytes

/-- The `k`-th type-id of the instance: never zero, since the permuted values are shifted up by one. -/
def Config.typeId (k : Fin 255) : Byte := BitVec.ofNat 8 ((Config.typeIdOrder k).val + 1)

/-- The parameters of the instance that `State.reset` belongs to: free within the constraints of R5, with both
optional switches at their default false (log 2, 4). -/
def Config.params : Params where
  rxCap := Config.rxCapLessTwo + 2
  txMaxPayload := Config.txMaxPayload
  typeIds :=
    { imuSample := Config.typeId 0, status := Config.typeId 1,
      deviceInfo := Config.typeId 2, command := Config.typeId 3 }
  rxAccept := Config.rxAccept
  encCloseAfterFull := false
  shortGoesIdle := false

end Sys2Proof
end

