-- ==== Sys2Proof/Syntax.lean ====
section
/-! DEFINITION. The operations of the framer: one constructor per row of opcode_table.json (R62, R63).

The rows stand at three levels of the same byte streams, and at the ports. A byte arriving on `RX_IN` is a `DELIM` or a
`DATA` (R50); a code byte of an encoded sequence is a `CODE_ZERO`, `CODE_RUN` or `CODE_FULL` (R52); the seven
`RXB` cases refine `RXB` by the parser's state (R62); the five port operations are selected by their port (R62). -/

namespace Sys2Proof

/-- `RX_STATE`: the two states of the receive parser (R11). -/
inductive RxState where
  /-- No start marker since reset or since the last packet ended or was aborted. -/
  | idle
  /-- A start marker has been seen: bytes other than `0x00` are being appended to `RXBUF`. -/
  | accumulating
  deriving DecidableEq, Repr

/-- The seven cases of `RXB` (R62, R120). -/
inductive RxbCase where
  | start | skip | restart | short | packetEnd | append | overflow
  deriving DecidableEq, Repr

/-- The three classes of code byte (R52). -/
inductive CodeClass where
  | zero | run | full
  deriving DecidableEq, Repr

/-- The five ports, one per port operation (R62, D1). -/
inductive Port where
  | reset | enc | dec | txp | rxb
  deriving DecidableEq, Repr

/-- The operations, one constructor per row of opcode_table.json. -/
inductive Instr where
  /-- `DELIM`: the byte `0x00` arrives on `RX_IN` (R50). -/
  | delim
  /-- `DATA`: a byte `0x01..0xFF` arrives on `RX_IN` (R50). -/
  | data (b : Byte)
  /-- `CODE_ZERO`: the decoder meets the code byte `0x00` (R52, R95). -/
  | codeZero
  /-- `CODE_RUN`: the decoder meets a code byte `0x01..0xFE` (R52). -/
  | codeRun (c : Byte)
  /-- `CODE_FULL`: the decoder meets the code byte `0xFF` (R52). -/
  | codeFull
  /-- `RESET` (R170). -/
  | reset
  /-- `ENC x` (R76). -/
  | enc (x : Bytes)
  /-- `DEC y` (R96). -/
  | dec (y : Bytes)
  /-- `TXP t, p` (R111). -/
  | txp (t : Byte) (p : Bytes)
  /-- `RXB b` (R120). -/
  | rxb (b : Byte)
  /-- `RXB.START` (R121). -/
  | rxbStart
  /-- `RXB.SKIP` (R122). -/
  | rxbSkip (b : Byte)
  /-- `RXB.RESTART` (R123). -/
  | rxbRestart
  /-- `RXB.SHORT` (R124). -/
  | rxbShort
  /-- `RXB.END` (R125). -/
  | rxbEnd
  /-- `RXB.APPEND` (R126). -/
  | rxbAppend (b : Byte)
  /-- `RXB.OVERFLOW` (R127). -/
  | rxbOverflow (b : Byte)
  deriving DecidableEq, Repr

end Sys2Proof
end

