-- ==== Sys2Proof/WellFormed.lean ====
section
/-! DEFINITION. Which terms of `Instr` the table's rows admit: the byte operand of a class row lies in the row's range
(R50, R52, R63). The port operations take every byte and every byte sequence: what `TXP` does with type-id `0x00` and
what the ports do with a sequence that is too long is their meaning (R76, R96, R112), not their form. -/

namespace Sys2Proof

/-- The byte is of class `DATA`: `0x01..0xFF` (R50). -/
def isData (b : Byte) : Bool := b != 0x00#8

/-- The byte is of class `CODE_RUN`: `0x01..0xFE` (R52). -/
def isRunCode (c : Byte) : Bool := c != 0x00#8 && c != 0xFF#8

/-- Every byte operand lies in its row's range. -/
def Instr.wellFormed : Instr → Bool
  | .data b => isData b
  | .codeRun c => isRunCode c
  | .rxbSkip b => isData b
  | .rxbAppend b => isData b
  | .rxbOverflow b => isData b
  | .delim | .codeZero | .codeFull | .reset | .enc _ | .dec _ | .txp _ _ | .rxb _
  | .rxbStart | .rxbRestart | .rxbShort | .rxbEnd => true

end Sys2Proof
end

