-- ==== Sys2Proof/Decode.lean ====
section
/-! DEFINITION. Which operation a byte or a port transfer is, and the encoder the other way (30_encoding.md).

The same byte value is a different row at each place a byte can stand, so the decoder is told the place: R63's `format`
of a row. At the stream, at a code byte and in the parser the byte's value (with the parser's state) selects the row;
at a port the port selects it and the bytes are the operands (R62, log 17). -/

namespace Sys2Proof

/-- Where the bytes to be decoded stand: the formats of R63. -/
inductive Place where
  /-- `STREAM_BYTE`: the next byte of `RX_IN`. -/
  | stream
  /-- `COBS_CODE`: the code byte at the decoder's cursor. -/
  | code
  /-- `PORT_OP`: the operand bytes given at a port. -/
  | port (p : Port)
  /-- `RXB_CASE`: the next byte of `RX_IN`, the parser being in `RX_STATE = st`, `RX_LEN = len`, with `RX_CAP = cap`. -/
  | parser (st : RxState) (len cap : Nat)
  deriving DecidableEq, Repr

/-- Why bytes are no operation at their place. -/
inductive DecodeError where
  /-- A byte is needed and none is there. -/
  | noByte
  /-- More bytes than the operation has. -/
  | extraBytes
  deriving DecidableEq, Repr

/-- The class of a code byte (R52). -/
def codeClass (c : Byte) : CodeClass :=
  if c = 0x00#8 then .zero else if c = 0xFF#8 then .full else .run

/-- The case of `RXB` that the parser's state, the byte's class and `RX_LEN` select (R120, the second table of R62).
`RX_LEN` above `RX_CAP`, which R24(a) excludes, has no capacity left either (log 9). Overflow is decided by `RX_CAP`
accumulated bytes alone, as R127 says: where R177 calls a payload of `RX_CAP - 2` bytes always safe although its encoding
does not fit (255 bytes or more), following R127 is the model's choice (DESIGN CHOICE, log 21). -/
def rxbCase (st : RxState) (len cap : Nat) (b : Byte) : RxbCase :=
  match st with
  | .idle => if b = 0x00#8 then .start else .skip
  | .accumulating =>
    if b = 0x00#8 then
      if len = 0 then .restart else if len = 1 then .short else .packetEnd
    else if len < cap then .append else .overflow

/-- The row of level 1 that a byte on `RX_IN` is (R50). -/
def decodeStream (b : Byte) : Instr := if b = 0x00#8 then .delim else .data b

/-- The row of level 2 that a code byte is (R52). -/
def decodeCode (c : Byte) : Instr :=
  match codeClass c with
  | .zero => .codeZero
  | .run => .codeRun c
  | .full => .codeFull

/-- The row that a case of `RXB` on the byte `b` is (R62). -/
def decodeCase (k : RxbCase) (b : Byte) : Instr :=
  match k with
  | .start => .rxbStart
  | .skip => .rxbSkip b
  | .restart => .rxbRestart
  | .short => .rxbShort
  | .packetEnd => .rxbEnd
  | .append => .rxbAppend b
  | .overflow => .rxbOverflow b

/-- The operation that the operand bytes at a port are (R62). -/
def decodePort (p : Port) (bs : Bytes) : Except DecodeError Instr :=
  match p, bs with
  | .reset, [] => .ok .reset
  | .reset, _ :: _ => .error .extraBytes
  | .enc, x => .ok (.enc x)
  | .dec, y => .ok (.dec y)
  | .txp, t :: q => .ok (.txp t q)
  | .txp, [] => .error .noByte
  | .rxb, [b] => .ok (.rxb b)
  | .rxb, [] => .error .noByte
  | .rxb, _ :: _ :: _ => .error .extraBytes

/-- The decoder: total on every place and every byte sequence. -/
def decode (at_ : Place) (bs : Bytes) : Except DecodeError Instr :=
  match at_, bs with
  | .port p, bs => decodePort p bs
  | _, [] => .error .noByte
  | _, _ :: _ :: _ => .error .extraBytes
  | .stream, [b] => .ok (decodeStream b)
  | .code, [c] => .ok (decodeCode c)
  | .parser st len cap, [b] => .ok (decodeCase (rxbCase st len cap b) b)

/-- The bytes of an operation at its place (R50, R52, R62). -/
def encode : Instr → Bytes
  | .delim => [0x00#8]
  | .data b => [b]
  | .codeZero => [0x00#8]
  | .codeRun c => [c]
  | .codeFull => [0xFF#8]
  | .reset => []
  | .enc x => x
  | .dec y => y
  | .txp t p => t :: p
  | .rxb b => [b]
  | .rxbStart => [0x00#8]
  | .rxbSkip b => [b]
  | .rxbRestart => [0x00#8]
  | .rxbShort => [0x00#8]
  | .rxbEnd => [0x00#8]
  | .rxbAppend b => [b]
  | .rxbOverflow b => [b]

/-- The places at which an operation's bytes stand for it: for a case of `RXB`, the parser states of its row
(second table of R62), `RX_LEN` running over the whole of the row's condition. -/
def stands : Instr → Place → Bool
  | .delim, .stream | .data _, .stream => true
  | .codeZero, .code | .codeRun _, .code | .codeFull, .code => true
  | .reset, .port .reset | .enc _, .port .enc | .dec _, .port .dec | .txp _ _, .port .txp | .rxb _, .port .rxb => true
  | .rxbStart, .parser .idle len _ => len == 0
  | .rxbSkip _, .parser .idle len _ => len == 0
  | .rxbRestart, .parser .accumulating len _ => len == 0
  | .rxbShort, .parser .accumulating len _ => len == 1
  | .rxbEnd, .parser .accumulating len cap => decide (2 ≤ len ∧ len ≤ cap)
  | .rxbAppend _, .parser .accumulating len cap => decide (len < cap)
  | .rxbOverflow _, .parser .accumulating len cap => len == cap
  | _, _ => false

/-- A row's pattern in opcode_table.json (R63): `match`, `mask` and the inclusive `range`. -/
structure Pattern where
  value : Byte
  mask  : Byte
  lo    : Nat
  hi    : Nat
  deriving DecidableEq, Repr

/-- R63: a byte `v` matches when `(v & mask) == match` and it lies within the range. -/
def matchesPattern (r : Pattern) (v : Byte) : Bool :=
  v &&& r.mask == r.value && decide (r.lo ≤ v.toNat) && decide (v.toNat ≤ r.hi)

/-- The pattern the table gives an operation's row; the rows of the port operations have none. -/
def tablePattern : Instr → Option Pattern
  | .delim | .codeZero | .rxbStart | .rxbRestart | .rxbShort | .rxbEnd => some ⟨0x00#8, 0xFF#8, 0, 0⟩
  | .data _ | .rxbSkip _ | .rxbAppend _ | .rxbOverflow _ => some ⟨0x00#8, 0x00#8, 1, 255⟩
  | .codeRun _ => some ⟨0x00#8, 0x00#8, 1, 254⟩
  | .codeFull => some ⟨0xFF#8, 0xFF#8, 255, 255⟩
  | .reset | .enc _ | .dec _ | .txp _ _ | .rxb _ => none

/-- The operation that a table word is, read where the framer reads words one at a time: as the next byte of `RX_IN`,
at level 1 (log 17). A row with no bits (a port operation) has no word. -/
def decodeTableWord (nbits w : Nat) : Option Instr :=
  if nbits = 8 then
    match decode .stream [BitVec.ofNat 8 w] with
    | .ok i => some i
    | .error _ => none
  else none

end Sys2Proof
end

