-- ==== Sys2Proof/Machine/State.lean ====
section
/-! DEFINITION. The state of the framer as plain data, and the state after reset.

It holds the parameters of the instance (R5), the whole architectural state (`RX_STATE`, `RX_LEN`, `RXBUF`: the table of
10_state.md section 1), the histories a model keeps (R17, R18, R19), what the host presents at the ports (R9, R30), and
two fields of the model's own: the results returned at the ports (log 10) and the decoder's loop variables (log 11). -/

namespace Sys2Proof.Machine

/-- The labels a decode failure carries, for the model's trace only (R90, R150). -/
inductive DecFail where
  | empty | overrun | zeroCode | zeroData
  deriving DecidableEq, Repr

/-- The result of `dec`: the payload, or a failure with its trace label (R90). -/
inductive DecResult where
  | ok (x : Bytes)
  | fail (r : DecFail)
  deriving DecidableEq, Repr

/-- The labels of a packet dropped by the receive parser (R150). -/
inductive DropLabel where
  | decodeFail | unknownType | shortPacket | overflow
  deriving DecidableEq, Repr

/-- The labels of a refused request (R150). -/
inductive RefuseLabel where
  | zeroType | tooLong
  deriving DecidableEq, Repr

/-- One `(type-id, payload)` pair handed to the consumer (R18). -/
structure Delivery where
  typeId  : Byte
  payload : Bytes
  deriving DecidableEq, Repr

/-- A result returned at the port that asked (R20), with its trace label where R150 gives one. -/
inductive Response where
  /-- `ENC`: `accepted(y)` (R76). -/
  | encAccepted (y : Bytes)
  /-- `ENC`: `refused` (R76). -/
  | encRefused (r : RefuseLabel)
  /-- `DEC`: `ok(x)` or `fail` (R96). -/
  | decResult (r : DecResult)
  /-- `DEC`: `refused` (R96). -/
  | decRefused (r : RefuseLabel)
  /-- `TXP`: `accepted` (R111). -/
  | txpAccepted
  /-- `TXP`: `refused` (R112). -/
  | txpRefused (r : RefuseLabel)
  deriving DecidableEq, Repr

/-- A packet request at the `TXP` port (R110). -/
structure TxRequest where
  typeId  : Byte
  payload : Bytes
  deriving DecidableEq, Repr

/-- What the host presents at one moment: any of the five operations at their ports (R154, R171). -/
structure Moment where
  reset : Bool
  rx    : Option Byte
  tx    : Option TxRequest
  enc   : Option Bytes
  dec   : Option Bytes
  deriving DecidableEq, Repr

/-- The loop variables of `dec` (R91): the input from the cursor on, and the output so far. -/
structure DecWork where
  rest : Bytes
  out  : Bytes
  deriving DecidableEq, Repr

/-- The state of the framer. -/
structure State where
  /-- The parameters of the instance (R5): no step changes them (log 1). -/
  params : Params
  /-- `RX_STATE` (R11). -/
  rxState : RxState
  /-- `RX_LEN` (R12). -/
  rxLen : Nat
  /-- `RXBUF` (R13): the cells written so far as (index, byte), indices strictly rising (log 5). -/
  rxBuf : List Host.Cell
  /-- `TX_OUT` (R17). -/
  txOut : Bytes
  /-- `DELIVERIES` (R18). -/
  deliveries : List Delivery
  /-- `DROPS` (R19). -/
  drops : List DropLabel
  /-- The results returned at the ports, oldest first: the model's own trace (R20, log 10). -/
  responses : List Response
  /-- What the host has presented and the framer has not yet taken, oldest moment first (R9, R30, log 7). -/
  host : List Moment
  /-- The decoder's loop variables: the model's own field, empty between operations (R16, log 11). -/
  decoder : DecWork
  deriving DecidableEq, Repr

/-- `RX_IN`: the incoming bytes not yet consumed, first to be consumed first (R30). -/
def State.rxIn (s : State) : Bytes := s.host.filterMap Moment.rx

/-- Model faults. Each is an access to `RXBUF` that no rule of the spec makes (R13, R33); no state that meets the
invariants of R24 reaches one. -/
inductive Fault where
  /-- Raised by the two buffer primitives: an index outside `0..RX_CAP-1` (R7, R33). Safe: the model stops where the
  spec says the access cannot arise. -/
  | bufIndexOutOfRange
  /-- Raised by the buffer read: an index at or above `RX_LEN`, unreadable by R13 and U12. Safe. -/
  | bufReadAboveLen
  /-- Raised by the buffer read: a cell below `RX_LEN` that nothing has written, whose value R13 leaves unspecified.
  Safe. -/
  | bufCellUnwritten
  deriving DecidableEq, Repr

/-- Refusals of the model. No operation of the framer ends in one: a request the spec refuses is a next state with a
`Response` (R112). -/
inductive Refusal where
  /-- Raised by an arm of `exec` whose instruction has no meaning yet. Safe. No arm of this model is one. -/
  | notModelled (mnemonic : String)
  deriving DecidableEq, Repr

/-- The outcome of one operation. -/
abbrev Out := Host.Outcome State Fault Refusal

/-- The storage of a decoder that no operation is using (R16). -/
def DecWork.empty : DecWork := ⟨[], []⟩

/-- A moment at which the host presents nothing. -/
def Moment.none : Moment := ⟨false, Option.none, Option.none, Option.none, Option.none⟩

/-- The state after the first reset of an instance with parameters `p` (R23): `Idle`, `RX_LEN = 0`, no cell of `RXBUF`
readable, histories empty, and nothing presented by the host yet (log 5, 7, 10, 11). -/
def State.boot (p : Params) : State where
  params := p
  rxState := .idle
  rxLen := 0
  rxBuf := []
  txOut := []
  deliveries := []
  drops := []
  responses := []
  host := []
  decoder := DecWork.empty

/-- The state after reset of the instance whose parameters are the free constants of `Config`. -/
def State.reset : State := State.boot Config.params

end Sys2Proof.Machine
end

