-- ==== Sys2Proof/Machine/Ops.lean ====
section
/-! DEFINITION. The named operations over the state: the cells of `RXBUF` (R7, R33, R41), the parser's registers, the
histories (R7), and the fields of the host and of the decoder. Every meaning reads and writes the state through these.

The framer takes no exception and returns from none (R156, R157): what the spec has in that place are `drop` and, in
Machine/Flags.lean, `respond`, each one atomic update of the state. -/

namespace Sys2Proof.Machine

/-- What a cell of `RXBUF` that nothing has written holds: no value (R13, R23, log 5). -/
def unwrittenCell : Option Byte := none

/-- The byte in cell `i` of a buffer, if it has been written. -/
def cellAt : List Host.Cell → Nat → Option Byte
  | [], _ => unwrittenCell
  | (j, b) :: rest, i => if j = i then some b else cellAt rest i

/-- The buffer with `b` in cell `i`, in the canonical form. -/
def setCell : List Host.Cell → Nat → Byte → List Host.Cell
  | [], i, b => [(i, b)]
  | (j, c) :: rest, i, b =>
    if i < j then (i, b) :: (j, c) :: rest
    else if i = j then (i, b) :: rest
    else (j, c) :: setCell rest i b

/-- The canonical form of a buffer: indices strictly rising. An unwritten cell has no value, so no listed byte can equal
what it reads as. -/
def Memory.wf (m : List Host.Cell) : Bool := decide ((m.map Prod.fst).Pairwise (· < ·))

/-- The state with another buffer. -/
def State.withBuf (m : List Host.Cell) (s : State) : State := { s with rxBuf := m }

/-- The state with other values in `RX_STATE` and `RX_LEN`. -/
def State.withParser (st : RxState) (len : Nat) (s : State) : State := { s with rxState := st, rxLen := len }

/-- The state with other loop variables of the decoder. -/
def State.withDecoder (w : DecWork) (s : State) : State := { s with decoder := w }

/-- The state with other things presented by the host. -/
def State.withHost (h : List Moment) (s : State) : State := { s with host := h }

/-- `MemRead(RXBUF, i)` (R7), made only below `RX_LEN` (R33). -/
def readCell (s : State) (i : Nat) : Except Fault Byte :=
  if s.params.rxCap ≤ i then .error .bufIndexOutOfRange
  else if s.rxLen ≤ i then .error .bufReadAboveLen
  else
    match cellAt s.rxBuf i with
    | some b => .ok b
    | none => .error .bufCellUnwritten

/-- `[MemRead(RXBUF, i), ..., MemRead(RXBUF, i + n - 1)]` (R41). -/
def readCells (s : State) (i : Nat) : Nat → Except Fault Bytes
  | 0 => .ok []
  | n + 1 =>
    match readCell s i with
    | .error f => .error f
    | .ok b =>
      match readCells s (i + 1) n with
      | .error f => .error f
      | .ok bs => .ok (b :: bs)

/-- `MemWrite(RXBUF, i, v)` (R7). -/
def writeCell (s : State) (i : Nat) (v : Byte) : Except Fault State :=
  if s.params.rxCap ≤ i then .error .bufIndexOutOfRange
  else .ok (s.withBuf (setCell s.rxBuf i v))

/-- `emit_tx(s)` (R7, R17). -/
def emitTx (bs : Bytes) (s : State) : State := { s with txOut := s.txOut ++ bs }

/-- `deliver(t, p)` (R7, R18): always taken (R178, log 15). -/
def deliver (t : Byte) (p : Bytes) (s : State) : State := { s with deliveries := s.deliveries ++ [⟨t, p⟩] }

/-- `drop(reason)` (R7, R19): no effect but on the trace. -/
def drop (r : DropLabel) (s : State) : State := { s with drops := s.drops ++ [r] }

end Sys2Proof.Machine
end

