-- ==== Sys2Proof/Machine/Flags.lean ====
section
/-! DEFINITION. Results in place of flags. The framer has no flags and no condition codes: a result is returned at the
port that asked and stored nowhere (R20). The model keeps the results as a trace (log 10). -/

namespace Sys2Proof.Machine

/-- A result is returned at the port that asked (R20). -/
def respond (r : Response) (s : State) : State := { s with responses := s.responses ++ [r] }

/-- What the requester sees of a result (R20, R90, R150, R151): no label. -/
inductive Answer where
  | accepted | acceptedBytes (y : Bytes) | ok (x : Bytes) | fail | refused
  deriving DecidableEq, Repr

/-- The result without its trace label: `fail` and `refused` are all the hardware reports (R90, R151). -/
def visible : Response → Answer
  | .encAccepted y => .acceptedBytes y
  | .encRefused _ => .refused
  | .decResult (.ok x) => .ok x
  | .decResult (.fail _) => .fail
  | .decRefused _ => .refused
  | .txpAccepted => .accepted
  | .txpRefused _ => .refused

end Sys2Proof.Machine
end

