-- ==== Sys2Proof/Machine/Operands.lean ====
section
/-! DEFINITION. The operand forms: the literal count of a code byte and the code of a run (R53), and the size limits of
the operands of the ports (R36). -/

namespace Sys2Proof.Machine

/-- `n = zext(L) - 1`: the number of literals a code byte announces (R53). -/
def literalCount (c : Byte) : Nat := c.toNat - 1

/-- The number of literals of a full block (R52). -/
def fullLiterals : Nat := 254

/-- `L = zext(run length) + 1`: the code byte of a run of at most 253 literals (R53). -/
def runCode (n : Nat) : Byte := BitVec.ofNat 8 (n + 1)

/-- The payload is longer than `TXP` and `ENC` accept (R36, R76, R112). -/
def payloadTooLong (s : State) (p : Bytes) : Bool := decide (s.params.txMaxPayload < p.length)

/-- The sequence is longer than `DEC` accepts: more than `RX_CAP - 1` bytes (R36, R96). -/
def encodedTooLong (s : State) (y : Bytes) : Bool := decide (s.params.rxCap - 1 < y.length)

end Sys2Proof.Machine
end

