-- ==== Sys2Proof/Machine/Codec.lean ====
section
/-! DEFINITION. The byte-stuffing codec: `enc` (R72), `dec` (R91) and the wire image of a packet (R58, R111). -/

namespace Sys2Proof.Machine

/-- The loop variables of `enc` (R72): `out`, the pending block `blk`, and `fin`, whether a closing block is owed. -/
structure EncWork where
  out : Bytes
  blk : Bytes
  fin : Bool
  deriving DecidableEq, Repr

/-- The loop variables of `enc` before the first byte. -/
def encStart : EncWork := ⟨[], [], true⟩

/-- The pending block written out behind its code byte. -/
def closeBlock (w : EncWork) : Bytes := w.out ++ runCode w.blk.length :: w.blk

/-- One iteration of `enc`: the byte `b` of the input (R72). -/
def encByte (w : EncWork) (b : Byte) : EncWork :=
  if b = 0x00#8 then ⟨closeBlock w, [], true⟩
  else if w.blk.length + 1 = fullLiterals then ⟨w.out ++ 0xFF#8 :: (w.blk ++ [b]), [], false⟩
  else ⟨w.out, w.blk ++ [b], true⟩

/-- The end of `enc`: close the final run if a block is owed. With `ENC_CLOSE_AFTER_FULL` a block is owed after a final
full block too (D6, log 4). -/
def encFinish (closeAfterFull : Bool) (w : EncWork) : Bytes :=
  if w.fin || closeAfterFull then closeBlock w else w.out

/-- `enc(x)` (R72). -/
def encBytes (closeAfterFull : Bool) (x : Bytes) : Bytes := encFinish closeAfterFull (x.foldl encByte encStart)

/-- How one iteration of `dec` ends: the loop goes on, or it is over. -/
inductive BlockOutcome where
  | more (w : DecWork)
  | done (r : DecResult)
  deriving DecidableEq, Repr

/-- `dec` meets a code byte that announces `n` literals, `impliesZero` saying whether the code is other than `0xFF`;
`w.rest` is the input after the code byte (R91, R93, R95, R99). -/
def takeBlock (n : Nat) (impliesZero : Bool) (w : DecWork) : BlockOutcome :=
  if w.rest.length < n then .done (.fail .overrun)
  else if (w.rest.take n).contains 0x00#8 then .done (.fail .zeroData)
  else
    match w.rest.drop n with
    | [] => .done (.ok (w.out ++ w.rest.take n))
    | b :: rest => .more ⟨b :: rest, w.out ++ w.rest.take n ++ if impliesZero then [0x00#8] else []⟩

/-- `dec` meets the code byte `0x00` (R95). -/
def zeroBlock : BlockOutcome := .done (.fail .zeroCode)

/-- `dec` meets the code byte `c`, `w.rest` being the input after it: one iteration of the loop of R91. -/
def codeStep (c : Byte) (w : DecWork) : BlockOutcome :=
  match codeClass c with
  | .zero => zeroBlock
  | .run => takeBlock (literalCount c) true w
  | .full => takeBlock fullLiterals false w

/-- The loop of `dec` (R91). Every iteration consumes at least the code byte, so the length of the input is fuel
enough (R90). -/
def decLoop : Nat → DecWork → DecResult
  | 0, w => .ok w.out
  | fuel + 1, w =>
    match w.rest with
    | [] => .ok w.out
    | c :: rest =>
      match codeStep c ⟨rest, w.out⟩ with
      | .done r => r
      | .more w' => decLoop fuel w'

/-- `dec(y)` (R91): the empty input fails (R92). -/
def decBytes (y : Bytes) : DecResult :=
  match y with
  | [] => .fail .empty
  | c :: rest => decLoop (c :: rest).length ⟨c :: rest, []⟩

/-- `wire(t, p)`: the bytes of a packet on the wire (R58, R111). -/
def wire (closeAfterFull : Bool) (t : Byte) (p : Bytes) : Bytes :=
  0x00#8 :: t :: (encBytes closeAfterFull p ++ [0x00#8])

/-- `enc` of an instance. -/
def State.enc (s : State) (x : Bytes) : Bytes := encBytes s.params.encCloseAfterFull x

end Sys2Proof.Machine
end

