-- ==== Sys2Proof/Machine/CobsCode.lean ====
section
/-! DEFINITION. The three code-byte rows: one iteration of the loop of `dec` (R52, R91), on the decoder's loop variables,
whose `rest` is the input after the code byte (log 11). -/

namespace Sys2Proof.Machine

/-- What an iteration leaves: the loop goes on, or its result is returned and the storage is empty again (R16). -/
def finishBlock (o : BlockOutcome) (s : State) : Out :=
  match o with
  | .more w => .next (s.withDecoder w)
  | .done r => .next ((respond (.decResult r) s).withDecoder DecWork.empty)

/-- `CODE_ZERO` (R52, R95): `dec` fails. -/
def execCodeZero (s : State) : Out := finishBlock zeroBlock s

/-- `CODE_RUN` (R52): copy `L - 1` literals; a zero if input remains. A byte outside `0x01..0xFE` is of another class and
acts as that class does (log 12). -/
def execCodeRun (c : Byte) (s : State) : Out :=
  if isRunCode c then finishBlock (takeBlock (literalCount c) true s.decoder) s
  else finishBlock (codeStep c s.decoder) s

/-- `CODE_FULL` (R52): copy 254 literals; never a zero. -/
def execCodeFull (s : State) : Out := finishBlock (takeBlock fullLiterals false s.decoder) s

end Sys2Proof.Machine
end

