-- ==== Sys2Proof/Machine/Receive.lean ====
section
/-! DEFINITION. The receive parser: the effect of each of the seven cases (R121 to R127) and the dispatch among them
(R120). -/

namespace Sys2Proof.Machine

/-- The case of `RXB b` that the state selects (R120). -/
def caseOf (s : State) (b : Byte) : RxbCase := rxbCase s.rxState s.rxLen s.params.rxCap b

/-- R121: a start marker; accumulation begins. -/
def startEffect (s : State) : Out := .next (s.withParser .accumulating 0)

/-- R122: nothing. -/
def skipEffect (s : State) : Out := .next s

/-- R123: the most recent delimiter is the start marker; accumulation restarts from empty. -/
def restartEffect (s : State) : Out := .next (s.withParser .accumulating 0)

/-- R124: the one byte is dropped and the delimiter is a start marker; under `SHORT_GOES_IDLE` the parser goes idle
(D10, log 4). -/
def shortEffect (s : State) : Out :=
  .next ((drop .shortPacket s).withParser (if s.params.shortGoesIdle then .idle else .accumulating) 0)

/-- The accumulated packet is decoded and delivered or dropped, the decode being tested before the type (R125). -/
def closePacket (t : Byte) (y : Bytes) (s : State) : State :=
  match decBytes y with
  | .fail _ => drop .decodeFail s
  | .ok p => if s.params.accepts t then deliver t p s else drop .unknownType s

/-- R125: the end marker; in all three outcomes the parser goes idle and empty. -/
def endEffect (s : State) : Out :=
  match readCell s 0 with
  | .error f => .fault f
  | .ok t =>
    match readCells s 1 (s.rxLen - 1) with
    | .error f => .fault f
    | .ok y => .next ((closePacket t y s).withParser .idle 0)

/-- R126: the byte is stored and `RX_LEN` counts it. -/
def appendEffect (b : Byte) (s : State) : Out :=
  match writeCell s s.rxLen b with
  | .error f => .fault f
  | .ok t => .next (t.withParser t.rxState (t.rxLen + 1))

/-- R127: framing error; everything accumulated is abandoned and the parser waits for the next `0x00`. -/
def overflowEffect (s : State) : Out := .next ((drop .overflow s).withParser .idle 0)

/-- `RXB b`: exactly one of the seven cases (R120). -/
def receiveByte (b : Byte) (s : State) : Out :=
  match caseOf s b with
  | .start => startEffect s
  | .skip => skipEffect s
  | .restart => restartEffect s
  | .short => shortEffect s
  | .packetEnd => endEffect s
  | .append => appendEffect b s
  | .overflow => overflowEffect s

end Sys2Proof.Machine
end

