-- ==== Sys2Proof/Machine/PortOps.lean ====
section
/-! DEFINITION. The five port operations (R62). -/

namespace Sys2Proof.Machine

/-- `RESET` (R170): the parser goes idle and empty. No history is erased, no cell of `RXBUF` is touched, and the
decoder's storage is empty (log 6). -/
def execReset (s : State) : Out := .next ((s.withParser .idle 0).withDecoder DecWork.empty)

/-- `ENC x` (R76). -/
def execEnc (x : Bytes) (s : State) : Out :=
  if payloadTooLong s x then .next (respond (.encRefused .tooLong) s)
  else .next (respond (.encAccepted (s.enc x)) s)

/-- `DEC y` (R96). -/
def execDec (y : Bytes) (s : State) : Out :=
  if encodedTooLong s y then .next (respond (.decRefused .tooLong) s)
  else .next (respond (.decResult (decBytes y)) s)

/-- `TXP t, p` (R111, R112): the type is checked before the length, both before the first byte is emitted. -/
def execTxp (t : Byte) (p : Bytes) (s : State) : Out :=
  if t = 0x00#8 then .next (respond (.txpRefused .zeroType) s)
  else if payloadTooLong s p then .next (respond (.txpRefused .tooLong) s)
  else
    .next (respond .txpAccepted
      (emitTx [0x00#8] (emitTx (s.enc p) (emitTx [t] (emitTx [0x00#8] s)))))

/-- `RXB b` (R120). -/
def execRxb (b : Byte) (s : State) : Out := receiveByte b s

end Sys2Proof.Machine
end

