-- ==== Sys2Proof/Machine/RxbCases.lean ====
section
/-! DEFINITION. The seven rows of the cases of `RXB` (R62, R121 to R127). Where the state selects the row's case, the row
has that case's effect. In a state that selects another case the byte is no such row (R120): it is consumed and has
the effect of the case the state does select (log 12). -/

namespace Sys2Proof.Machine

/-- `RXB.START` (R121). -/
def execRxbStart (s : State) : Out :=
  if caseOf s 0x00#8 = .start then startEffect s else receiveByte 0x00#8 s

/-- `RXB.SKIP` (R122). -/
def execRxbSkip (b : Byte) (s : State) : Out :=
  if caseOf s b = .skip then skipEffect s else receiveByte b s

/-- `RXB.RESTART` (R123). -/
def execRxbRestart (s : State) : Out :=
  if caseOf s 0x00#8 = .restart then restartEffect s else receiveByte 0x00#8 s

/-- `RXB.SHORT` (R124). -/
def execRxbShort (s : State) : Out :=
  if caseOf s 0x00#8 = .short then shortEffect s else receiveByte 0x00#8 s

/-- `RXB.END` (R125). -/
def execRxbEnd (s : State) : Out :=
  if caseOf s 0x00#8 = .packetEnd then endEffect s else receiveByte 0x00#8 s

/-- `RXB.APPEND` (R126). -/
def execRxbAppend (b : Byte) (s : State) : Out :=
  if caseOf s b = .append then appendEffect b s else receiveByte b s

/-- `RXB.OVERFLOW` (R127). -/
def execRxbOverflow (b : Byte) (s : State) : Out :=
  if caseOf s b = .overflow then overflowEffect s else receiveByte b s

end Sys2Proof.Machine
end

