-- ==== Sys2Proof/Machine/StreamByte.lean ====
section
/-! DEFINITION. The two stream-byte rows: a byte of class `DELIM` or `DATA` arrives on `RX_IN` and the receive agent
consumes it (R50, R120). -/

namespace Sys2Proof.Machine

/-- `DELIM` (R50): the byte `0x00` arrives. -/
def execDelim (s : State) : Out := receiveByte 0x00#8 s

/-- `DATA` (R50): a byte `0x01..0xFF` arrives. The byte's value alone decides its class (log 12). -/
def execData (b : Byte) (s : State) : Out := receiveByte b s

end Sys2Proof.Machine
end

