-- ==== Sys2Proof/Machine/Dispatch.lean ====
section
/-! DEFINITION. The dispatch: one arm per constructor of `Instr`, each one direct call of its meaning. -/

namespace Sys2Proof.Machine

def exec (i : Instr) (s : State) : Host.Outcome State Fault Refusal :=
  match i with
  -- stream bytes (R50)
  | .delim => Sys2Proof.Machine.execDelim s
  | .data b => Sys2Proof.Machine.execData b s
  -- code bytes (R52)
  | .codeZero => Sys2Proof.Machine.execCodeZero s
  | .codeRun c => Sys2Proof.Machine.execCodeRun c s
  | .codeFull => Sys2Proof.Machine.execCodeFull s
  -- port operations (R62)
  | .reset => Sys2Proof.Machine.execReset s
  | .enc x => Sys2Proof.Machine.execEnc x s
  | .dec y => Sys2Proof.Machine.execDec y s
  | .txp t p => Sys2Proof.Machine.execTxp t p s
  | .rxb b => Sys2Proof.Machine.execRxb b s
  -- the cases of RXB (R62)
  | .rxbStart => Sys2Proof.Machine.execRxbStart s
  | .rxbSkip b => Sys2Proof.Machine.execRxbSkip b s
  | .rxbRestart => Sys2Proof.Machine.execRxbRestart s
  | .rxbShort => Sys2Proof.Machine.execRxbShort s
  | .rxbEnd => Sys2Proof.Machine.execRxbEnd s
  | .rxbAppend b => Sys2Proof.Machine.execRxbAppend b s
  | .rxbOverflow b => Sys2Proof.Machine.execRxbOverflow b s

end Sys2Proof.Machine
end

