-- ==== Sys2Proof/Machine/Fetch.lean ====
section
/-! DEFINITION. How the next operation comes to the framer. There is no program and no program counter (R15): the host
presents operations at the ports, moment by moment, and the framer takes one at a time (R9, R34, log 7).

At one moment `RESET` has priority over whatever else is presented, and that is lost (R154, R171). The other operations
of a moment share no state and may be taken in any order (R37, R154): the model takes `RXB`, `TXP`, `ENC`, `DEC`
(log 8). A decode whose loop variables are held in `State.decoder` goes on with its next code byte before anything but
a reset is taken (log 11). -/

namespace Sys2Proof.Machine

/-- The moments still to be served when `m` is what is left of the oldest one. -/
def pushMoment (m : Moment) (ms : List Moment) : List Moment := if m = Moment.none then ms else m :: ms

/-- The operation taken from a moment without a reset, and what is left of the moment. -/
def takeOp (m : Moment) : Option (Instr × Moment) :=
  match m.rx, m.tx, m.enc, m.dec with
  | some b, _, _, _ => some (decodeStream b, { m with rx := none })
  | none, some q, _, _ => some (.txp q.typeId q.payload, { m with tx := none })
  | none, none, some x, _ => some (.enc x, { m with enc := none })
  | none, none, none, some y => some (.dec y, { m with dec := none })
  | none, none, none, none => none

/-- The next code byte of the decode that is in progress, if one is. -/
def fetchCode (s : State) : Option (Instr × State) :=
  match s.decoder.rest with
  | [] => none
  | c :: rest => some (decodeCode c, s.withDecoder ⟨rest, s.decoder.out⟩)

/-- The next operation presented at the ports, no reset among them. -/
def fetchPort (s : State) : Option (Instr × State) :=
  match s.host with
  | [] => none
  | m :: ms =>
    match takeOp m with
    | none => none
    | some (i, m') => some (i, s.withHost (pushMoment m' ms))

/-- A reset is presented at the oldest moment. -/
def resetPresented (s : State) : Bool :=
  match s.host with
  | [] => false
  | m :: _ => m.reset

/-- The next operation and the state in which it runs: the operation has been taken from where it stood. -/
def fetch (s : State) : Option (Instr × State) :=
  if resetPresented s then some (.reset, s.withHost s.host.tail)
  else
    match fetchCode s with
    | some r => some r
    | none => fetchPort s

end Sys2Proof.Machine
end

