-- ==== Sys2Proof/Machine/Step.lean ====
section
/-! DEFINITION. One step of the framer: one operation (R9, R183). -/

namespace Sys2Proof.Machine

/-- The next operation is fetched and performed. When the oldest moment presents nothing, or the host presents nothing
at all, the framer waits: the moment passes and nothing else changes (R174, log 7). -/
def step (s : State) : Host.Outcome State Fault Refusal :=
  match fetch s with
  | some (i, t) => exec i t
  | none => .next (s.withHost s.host.tail)

/-- The state in which the next step takes the byte `w` from `RX_IN` and runs it: the byte is presented at a moment of
its own, ahead of all others, and no decode is in progress (log 7, 17). A row with no bits has no word to place. -/
def State.withFetchWord (s : State) (nbits w : Nat) : State :=
  if nbits = 8 then
    (s.withHost ({ Moment.none with rx := some (BitVec.ofNat 8 w) } :: s.host)).withDecoder DecWork.empty
  else s

end Sys2Proof.Machine
end

