-- ==== Sys2Proof/Safety.lean ====
section
/-! DEFINITION. The terms in which claims about the framer are stated: the invariants of R24, the bytes a parser has
accumulated, feeding a byte string to the receive agent, whole blocks (R51), the encoder by runs (R71), and when two
states or outcomes are the same but for something. -/

namespace Sys2Proof.Machine

/-! ### Invariants -/

/-- R24(c): every cell of `RXBUF` below `RX_LEN` holds a non-zero byte. -/
def State.cellsHoldData (s : State) : Prop :=
  ∀ i, i < s.rxLen → ∃ b, cellAt s.rxBuf i = some b ∧ b ≠ 0x00#8

/-- R24(a), (b), (c): the invariants of the parser. -/
def State.parserInv (s : State) : Prop :=
  s.rxLen ≤ s.params.rxCap ∧ (s.rxState = .idle → s.rxLen = 0) ∧ s.cellsHoldData

/-- R24(d): `TX_OUT` is a concatenation of whole packet images with non-zero type-ids. -/
def State.txWhole (s : State) : Prop :=
  ∃ packets : List Delivery, (∀ q ∈ packets, q.typeId ≠ 0x00#8) ∧
    s.txOut = packets.flatMap fun q => wire s.params.encCloseAfterFull q.typeId q.payload

/-- R24: the global invariants. -/
def State.globalInv (s : State) : Prop := s.parserInv ∧ s.txWhole

/-- What is true of every pair the receive side has handed over: the type-id is non-zero and recognised, and the payload
has at most `RX_CAP - 2` bytes (R14, R36, R125). -/
def State.deliveriesFit (s : State) : Prop :=
  ∀ d ∈ s.deliveries, d.typeId ≠ 0x00#8 ∧ s.params.accepts d.typeId = true ∧ d.payload.length + 2 ≤ s.params.rxCap

/-! ### What has been accumulated -/

/-- `RXBUF[0..RX_LEN-1]` is the sequence `bs`. -/
def State.holds (s : State) (bs : Bytes) : Prop :=
  s.rxLen = bs.length ∧ ∀ i, i < bs.length → cellAt s.rxBuf i = bs[i]?

/-- The condition of a case of `RXB`: a row of the second table of R62. -/
def caseCondition (k : RxbCase) (s : State) (b : Byte) : Prop :=
  match k with
  | .start => s.rxState = .idle ∧ b = 0x00#8 ∧ s.rxLen = 0
  | .skip => s.rxState = .idle ∧ b ≠ 0x00#8 ∧ s.rxLen = 0
  | .restart => s.rxState = .accumulating ∧ b = 0x00#8 ∧ s.rxLen = 0
  | .short => s.rxState = .accumulating ∧ b = 0x00#8 ∧ s.rxLen = 1
  | .packetEnd => s.rxState = .accumulating ∧ b = 0x00#8 ∧ 2 ≤ s.rxLen ∧ s.rxLen ≤ s.params.rxCap
  | .append => s.rxState = .accumulating ∧ b ≠ 0x00#8 ∧ s.rxLen < s.params.rxCap
  | .overflow => s.rxState = .accumulating ∧ b ≠ 0x00#8 ∧ s.rxLen = s.params.rxCap

/-- The byte that an operation of the receive agent consumes; the other operations consume none. -/
def receivedByte : Instr → Option Byte
  | .delim | .rxbStart | .rxbRestart | .rxbShort | .rxbEnd => some 0x00#8
  | .data b | .rxb b | .rxbSkip b | .rxbAppend b | .rxbOverflow b => some b
  | .codeZero | .codeRun _ | .codeFull | .reset | .enc _ | .dec _ | .txp _ _ => none

/-! ### Feeding bytes -/

/-- `RX b0 b1 ... bn`: one `RXB` per byte, in order (R64), stopping at the first that does not answer a next state. -/
def feed : Bytes → State → Out
  | [], s => .next s
  | b :: bs, s =>
    match exec (.rxb b) s with
    | .next t => feed bs t
    | .fault f => .fault f
    | .refused r => .refused r

/-- The packets' images one after another, each with both its delimiters (R58). -/
def wireAll (closeAfterFull : Bool) (packets : List Delivery) : Bytes :=
  packets.flatMap fun q => wire closeAfterFull q.typeId q.payload

/-- A packet that the instance can receive: a non-zero recognised type-id, and an encoding that fits (R116, R130): the exact
condition, not R177's bound on the payload (log 21). -/
def State.canReceive (s : State) (closeAfterFull : Bool) (q : Delivery) : Prop :=
  q.typeId ≠ 0x00#8 ∧ s.params.accepts q.typeId = true ∧
    (encBytes closeAfterFull q.payload).length + 1 ≤ s.params.rxCap

/-! ### Blocks, and the encoder by runs -/

/-- The literals `lits` are those that the code byte `c` announces: a block (R51). -/
def isBlock (c : Byte) (lits : Bytes) : Prop := c ≠ 0x00#8 ∧ lits.length = literalCount c ∧ 0x00#8 ∉ lits

/-- The sequence splits into whole blocks (R51); the empty one into none. -/
inductive WholeBlocks : Bytes → Prop where
  | nil : WholeBlocks []
  | cons (c : Byte) (lits rest : Bytes) (block : isBlock c lits) (tail : WholeBlocks rest) :
      WholeBlocks (c :: (lits ++ rest))

/-- The last block of the sequence is a full one. -/
def endsInFullBlock (y : Bytes) : Prop :=
  ∃ pre lits, WholeBlocks pre ∧ isBlock 0xFF#8 lits ∧ y = pre ++ 0xFF#8 :: lits

/-- The runs of the input: it is split at its zero bytes (R71). -/
def splitRuns : Bytes → List Bytes
  | [] => [[]]
  | b :: x =>
    if b = 0x00#8 then [] :: splitRuns x
    else
      match splitRuns x with
      | [] => [[b]]
      | r :: rs => (b :: r) :: rs

/-- `blocks(r, kind)` of R71, `final` saying whether the run is the last; the first argument bounds the splits. -/
def runBlocks : Nat → Bool → Bytes → Bytes
  | 0, _, _ => []
  | n + 1, final, r =>
    if r.length ≤ 253 then BitVec.ofNat 8 (r.length + 1) :: r
    else if r.length = 254 ∧ final = true then 0xFF#8 :: r
    else 0xFF#8 :: (r.take 254 ++ runBlocks n final (r.drop 254))

/-- `enc(x)` by runs (R71). -/
def encByRuns (x : Bytes) : Bytes :=
  (splitRuns x).dropLast.flatMap (fun r => runBlocks (r.length + 1) false r) ++
    runBlocks (((splitRuns x).getLast?.getD []).length + 1) true ((splitRuns x).getLast?.getD [])

/-! ### The same but for something -/

/-- Histories put in front of a state's own. -/
structure Histories where
  txOut : Bytes
  deliveries : List Delivery
  drops : List DropLabel
  responses : List Response
  deriving DecidableEq, Repr

/-- The state with an earlier history put in front of its own. -/
def State.withEarlier (h : Histories) (s : State) : State :=
  { s with txOut := h.txOut ++ s.txOut, deliveries := h.deliveries ++ s.deliveries,
           drops := h.drops ++ s.drops, responses := h.responses ++ s.responses }

/-- An outcome with its next state changed. -/
def mapNext (f : State → State) : Out → Out
  | .next t => .next (f t)
  | .fault r => .fault r
  | .refused r => .refused r

/-- The two states differ at most in cells of `RXBUF` at or above `RX_LEN`. -/
def sameBelowRxLen (s u : State) : Prop :=
  u = s.withBuf u.rxBuf ∧ ∀ i, i < s.rxLen → cellAt u.rxBuf i = cellAt s.rxBuf i

/-- Two outcomes of the same kind, next states standing in `r`, stops being equal. -/
def sameOutcome (r : State → State → Prop) : Out → Out → Prop
  | .next t, .next u => r t u
  | .fault f, .fault g => f = g
  | .refused f, .refused g => f = g
  | _, _ => False

end Sys2Proof.Machine
end

