-- ==== Sys2Proof/Certificates/Slice0/Obligations.lean ====
section
/-! DEFINITION. The statements about the framer, from the numbered rules of spec/.

The parameters of the instance stand in the state (log 1), so "for every state" is "for every instance" too. `feed` runs
one `RXB` per byte. Where a statement names a closing switch of an encoder, it holds for a sender of either kind (D6). -/

open Sys2Proof Sys2Proof.Machine Host

/-! ### Reset, fetch and step -/

/-- R23: after reset the parser is `Idle` and empty, no cell of `RXBUF` can be read, and the histories are empty, for
every choice of the parameters (`State.reset` is that state for the free parameters of `Config`). That the first state
is `Idle` is the spec's own decision (D13). -/
def Obligations.ResetLeavesIdleEmptyParser : Prop :=
  ∀ p : Params, (State.boot p).params = p ∧ (State.boot p).rxState = .idle ∧ (State.boot p).rxLen = 0 ∧
    (State.boot p).txOut = [] ∧ (State.boot p).deliveries = [] ∧ (State.boot p).drops = [] ∧
    ∀ i b, readCell (State.boot p) i ≠ .ok b

/-- R5: the parameters of the instance that `State.reset` belongs to meet their constraints, and the two optional
switches are at the defaults of D6 and D10. That the parameters are free constants of `Config` is the model's choice
(log 2, log 4). -/
def Obligations.ResetParametersMeetConstraints : Prop :=
  State.reset = State.boot Config.params ∧ State.reset.params.ok ∧
    State.reset.params.encCloseAfterFull = false ∧ State.reset.params.shortGoesIdle = false

/-- One step is one operation: a reset presented at the oldest moment, with the rest of that moment lost; else the next
code byte of a decode in progress; else the first of `RXB`, `TXP`, `ENC`, `DEC` presented at the oldest moment; else
nothing but the passing of the moment. The order within a moment and the form of the host's input are the model's
choice (log 7, 8, 11). -/
def Obligations.StepRunsTheFetchedOperation : Prop :=
  ∀ s : State,
    (∀ m ms, s.host = m :: ms → m.reset = true → step s = exec .reset { s with host := ms }) ∧
    (∀ c rest, (∀ m ms, s.host = m :: ms → m.reset = false) → s.decoder.rest = c :: rest →
      step s = exec (decodeCode c) { s with decoder := ⟨rest, s.decoder.out⟩ }) ∧
    (∀ m ms, s.host = m :: ms → m.reset = false → s.decoder.rest = [] →
      (∀ b, m.rx = some b →
        step s = exec (decodeStream b) { s with host := pushMoment { m with rx := none } ms }) ∧
      (∀ q, m.rx = none → m.tx = some q →
        step s = exec (.txp q.typeId q.payload) { s with host := pushMoment { m with tx := none } ms }) ∧
      (∀ x, m.rx = none → m.tx = none → m.enc = some x →
        step s = exec (.enc x) { s with host := pushMoment { m with enc := none } ms }) ∧
      (∀ y, m.rx = none → m.tx = none → m.enc = none → m.dec = some y →
        step s = exec (.dec y) { s with host := pushMoment { m with dec := none } ms }) ∧
      (m = Moment.none → step s = .next { s with host := ms })) ∧
    (s.host = [] → s.decoder.rest = [] → step s = .next s)

/-- R171, R154: a reset presented together with anything else wins: the step is the reset alone, and what else was
presented at that moment is lost, no history changing (the spec's own decision D25). That the cells of `RXBUF`,
unspecified after a reset by R23, are kept, unreadable, and that the decoder's storage, the model's own, is emptied is the
model's choice (log 6). -/
def Obligations.ResetWinsOverTheWholeMoment : Prop :=
  ∀ (s : State) (m : Moment) (ms : List Moment), s.host = m :: ms → m.reset = true →
    step s = .next { s with host := ms, rxState := .idle, rxLen := 0, decoder := DecWork.empty }

/-- R170: `RESET` makes the parser idle and empty, emits nothing and delivers nothing, and erases no history; no cell of
`RXBUF` can be read afterwards (the spec's own decision D13). -/
def Obligations.ResetOperationEffect : Prop :=
  ∀ s : State, ∃ t, exec .reset s = .next t ∧ t.rxState = .idle ∧ t.rxLen = 0 ∧ t.params = s.params ∧
    t.txOut = s.txOut ∧ t.deliveries = s.deliveries ∧ t.drops = s.drops ∧ ∀ i b, readCell t i ≠ .ok b

/-! ### Encodings -/

/-- Decoding the bytes of a well-formed operation, at any place where they stand for it, gives the operation back; and
whatever decoding gives is a well-formed operation whose bytes are the ones decoded. The byte form of the port operations
is the model's choice (log 17). -/
def Obligations.DecodeOfEncodeIsTheOperation : Prop :=
  (∀ (i : Instr) (at_ : Place), i.wellFormed = true → stands i at_ = true → decode at_ (encode i) = .ok i) ∧
  (∀ (at_ : Place) (bs : Bytes) (i : Instr), decode at_ bs = .ok i → i.wellFormed = true ∧ encode i = bs)

/-- R63: within `STREAM_BYTE` and within `COBS_CODE` exactly one row's pattern matches every byte, and it is the row
that the byte decodes to (the table's form is the spec's own decision D21). -/
def Obligations.TablePatternsMatchTheDecoder : Prop :=
  ∀ b : Byte,
    (∀ i ∈ [Instr.delim, Instr.data b], ∀ r, tablePattern i = some r →
      (matchesPattern r b = true ↔ decode .stream [b] = .ok i)) ∧
    (∀ i ∈ [Instr.codeZero, Instr.codeRun b, Instr.codeFull], ∀ r, tablePattern i = some r →
      (matchesPattern r b = true ↔ decode .code [b] = .ok i))

/-- A few words written out from the encodings of 30_encoding.md, and what they decode to: stream bytes, code bytes and the
byte of a case of `RXB` (R50, R52, R62). The bytes at the `TXP` port are not from the spec, whose table gives port rows no
bits: that they are the type-id and then the payload is the model's choice (log 17). -/
def Obligations.SampleWordsDecodeAsTheSpecSays : Prop :=
  decode .stream [0b00000000#8] = .ok .delim ∧ decode .stream [0b01000001#8] = .ok (.data 0x41#8) ∧
  decode .code [0b00000000#8] = .ok .codeZero ∧ decode .code [0b11111110#8] = .ok (.codeRun 0xFE#8) ∧
  decode .code [0b11111111#8] = .ok .codeFull ∧
  decode (.port .txp) [0x05#8, 0x11#8] = .ok (.txp 0x05#8 [0x11#8]) ∧
  decode (.parser .accumulating 16 16) [0x41#8] = .ok (.rxbOverflow 0x41#8)

/-! ### The receive parser, case by case -/

/-- Every row of the receive agent, whichever of its names it goes by, is `RXB` of its byte (R50, R62, R120). That this
is so too in a state that selects another case than the row's is the model's choice (log 12). -/
def Obligations.ReceiveRowsAreRxb : Prop :=
  ∀ (i : Instr) (b : Byte) (s : State), receivedByte i = some b → exec i s = exec (.rxb b) s

/-- R121: `RXB.START`. -/
def Obligations.StartBeginsAccumulation : Prop :=
  ∀ s : State, s.rxState = .idle →
    exec .rxbStart s = .next { s with rxState := .accumulating, rxLen := 0 } ∧
    exec (.rxb 0x00#8) s = .next { s with rxState := .accumulating, rxLen := 0 } ∧
    exec .delim s = .next { s with rxState := .accumulating, rxLen := 0 }

/-- R122: `RXB.SKIP`: nothing at all changes (the spec's own decision D9). -/
def Obligations.SkipDiscardsTheByte : Prop :=
  ∀ (s : State) (b : Byte), s.rxState = .idle → b ≠ 0x00#8 →
    exec (.rxbSkip b) s = .next s ∧ exec (.rxb b) s = .next s ∧ exec (.data b) s = .next s

/-- R123: `RXB.RESTART`: nothing is delivered or dropped, and any number of delimiters in a row leaves the parser
accumulating and empty. -/
def Obligations.RestartStartsClean : Prop :=
  ∀ s : State, s.rxState = .accumulating → s.rxLen = 0 →
    exec .rxbRestart s = .next s ∧ exec (.rxb 0x00#8) s = .next s ∧ exec .delim s = .next s ∧
    ∀ n, feed (List.replicate n 0x00#8) s = .next s

/-- R124: `RXB.SHORT`, under the default of `SHORT_GOES_IDLE` (the spec's own decision D10, log 4). -/
def Obligations.ShortPacketIsDroppedAndRestarts : Prop :=
  ∀ s : State, s.params.shortGoesIdle = false → s.rxState = .accumulating → s.rxLen = 1 →
    exec .rxbShort s = .next { s with drops := s.drops ++ [.shortPacket], rxState := .accumulating, rxLen := 0 } ∧
    exec (.rxb 0x00#8) s =
      .next { s with drops := s.drops ++ [.shortPacket], rxState := .accumulating, rxLen := 0 } ∧
    exec .delim s = .next { s with drops := s.drops ++ [.shortPacket], rxState := .accumulating, rxLen := 0 }

/-- D10: `RXB.SHORT` under the optional switch `SHORT_GOES_IDLE` (log 4). -/
def Obligations.ShortPacketGoesIdleUnderTheSwitch : Prop :=
  ∀ s : State, s.params.shortGoesIdle = true → s.rxState = .accumulating → s.rxLen = 1 →
    exec .rxbShort s = .next { s with drops := s.drops ++ [.shortPacket], rxState := .idle, rxLen := 0 } ∧
    exec (.rxb 0x00#8) s = .next { s with drops := s.drops ++ [.shortPacket], rxState := .idle, rxLen := 0 }

/-- R125: `RXB.END`. With `t` accumulated at index 0 and the sequence `y` above it, the packet is delivered if `y`
decodes and `t` is recognised, and dropped otherwise, the decode being tested first; in all three outcomes the parser
ends idle and empty and nothing else changes. If `y` is zero-free, as the parser's invariant makes it, `dec` can fail
only with `Overrun`, and a payload has at most `RX_CAP - 2` bytes. That the end marker is not also a start marker is
the spec's own decision D11. -/
def Obligations.EndMarkerDeliversOrDrops : Prop :=
  ∀ (s : State) (t : Byte) (y : Bytes), s.rxState = .accumulating → s.holds (t :: y) → y ≠ [] →
    s.rxLen ≤ s.params.rxCap →
    (∀ i ∈ [Instr.rxbEnd, Instr.rxb 0x00#8, Instr.delim],
      (∀ r, decBytes y = .fail r →
        exec i s = .next { s with drops := s.drops ++ [.decodeFail], rxState := .idle, rxLen := 0 }) ∧
      (∀ p, decBytes y = .ok p → s.params.accepts t = false →
        exec i s = .next { s with drops := s.drops ++ [.unknownType], rxState := .idle, rxLen := 0 }) ∧
      (∀ p, decBytes y = .ok p → s.params.accepts t = true →
        exec i s = .next { s with deliveries := s.deliveries ++ [⟨t, p⟩], rxState := .idle, rxLen := 0 })) ∧
    (∀ p, decBytes y = .ok p → p.length ≤ s.params.rxCap - 2) ∧
    (0x00#8 ∉ y → ∀ r, decBytes y = .fail r → r = .overrun)

/-- R126: `RXB.APPEND`: the byte is stored at index `RX_LEN`, where reading finds it, every other cell reads as before,
and `RX_LEN` grows by one. -/
def Obligations.AppendStoresTheByte : Prop :=
  ∀ (s : State) (b : Byte), s.rxState = .accumulating → b ≠ 0x00#8 → s.rxLen < s.params.rxCap →
    (∀ i ∈ [Instr.rxbAppend b, Instr.rxb b, Instr.data b],
      exec i s = .next { s with rxBuf := setCell s.rxBuf s.rxLen b, rxLen := s.rxLen + 1 }) ∧
    cellAt (setCell s.rxBuf s.rxLen b) s.rxLen = some b ∧
    ∀ j, j ≠ s.rxLen → cellAt (setCell s.rxBuf s.rxLen b) j = cellAt s.rxBuf j

/-- R127: `RXB.OVERFLOW`: the byte is not stored, everything accumulated is abandoned, nothing is delivered (the spec's
own decision D12). -/
def Obligations.OverflowAbandonsThePacket : Prop :=
  ∀ (s : State) (b : Byte), s.rxState = .accumulating → b ≠ 0x00#8 → s.rxLen = s.params.rxCap →
    ∀ i ∈ [Instr.rxbOverflow b, Instr.rxb b, Instr.data b],
      exec i s = .next { s with drops := s.drops ++ [.overflow], rxState := .idle, rxLen := 0 }

/-- R128: in every state that meets the parser's invariants, for every byte, the condition of exactly one case holds,
it is the case the framer applies, `RXB` answers a next state, and the invariants hold again. -/
def Obligations.EveryByteHasExactlyOneCase : Prop :=
  ∀ (s : State) (b : Byte), s.parserInv →
    (∀ k, caseCondition k s b ↔ k = caseOf s b) ∧ ∃ t, exec (.rxb b) s = .next t ∧ t.parserInv

/-- R13, U12: a read of a cell of `RXBUF` at or above `RX_LEN` is a model fault (the spec's own decision D13), and so is one
outside the buffer, which R33 says cannot arise. Which of the two is named first is the model's choice (log 5). -/
def Obligations.UnreadableCellsFault : Prop :=
  ∀ (s : State) (i : Nat),
    (s.params.rxCap ≤ i → readCell s i = .error .bufIndexOutOfRange) ∧
    (i < s.params.rxCap → s.rxLen ≤ i → readCell s i = .error .bufReadAboveLen)

/-! ### The receive parser over byte strings -/

/-- R129(a), (b): after any delimiter `RX_LEN` is 0; after two in a row the parser is accumulating and empty. -/
def Obligations.TwoDelimitersResynchronize : Prop :=
  ∀ s : State, s.parserInv →
    (∃ t, feed [0x00#8] s = .next t ∧ t.rxLen = 0) ∧
    (∃ t, feed [0x00#8, 0x00#8] s = .next t ∧ t.rxState = .accumulating ∧ t.rxLen = 0)

/-- R116, R129(c): a packet that fits and is recognised, fed to a parser that is idle or has accumulated at most one
byte (one byte under the default of `SHORT_GOES_IDLE`, the spec's own decision D10), is delivered as it was sent, and the
parser ends idle and empty. -/
def Obligations.PacketOnTheWireIsDelivered : Prop :=
  ∀ (s : State) (closing : Bool) (q : Delivery),
    (s.rxState = .idle ∨ s.rxLen = 0 ∨ s.rxLen = 1 ∧ s.params.shortGoesIdle = false) → s.canReceive closing q →
    ∃ t, feed (wire closing q.typeId q.payload) s = .next t ∧ t.deliveries = s.deliveries ++ [q] ∧
      t.rxState = .idle ∧ t.rxLen = 0 ∧ t.params = s.params ∧ t.txOut = s.txOut ∧ t.responses = s.responses

/-- R130: any number of packets back to back, each fitting and recognised, fed to an idle empty parser, are each
delivered, in order; nothing is dropped. -/
def Obligations.WireRoundTripInOrder : Prop :=
  ∀ (s : State) (closing : Bool) (packets : List Delivery), s.rxState = .idle → s.rxLen = 0 →
    (∀ q ∈ packets, s.canReceive closing q) →
    ∃ t, feed (wireAll closing packets) s = .next t ∧ t.deliveries = s.deliveries ++ packets ∧
      t.drops = s.drops ∧ t.rxState = .idle ∧ t.rxLen = 0

/-- R129: whatever has been received before, of two well-formed packets in a row at least the second is delivered. -/
def Obligations.GarbageCostsAtMostOnePacket : Prop :=
  ∀ (s : State) (garbage : Bytes) (closing : Bool) (q r : Delivery), s.parserInv →
    s.canReceive closing q → s.canReceive closing r →
    ∃ t earlier, feed (garbage ++ wireAll closing [q, r]) s = .next t ∧
      t.deliveries = s.deliveries ++ earlier ++ [r] ∧ t.rxState = .idle ∧ t.rxLen = 0

/-- R127, R177: a packet too long for the receiver is discarded whole and costs no other packet (the spec's own decision
D12). Too long is `RX_CAP < |enc(p)| + 1`; for a payload of 255 to `RX_CAP - 2` bytes, which R177 also calls always safe,
that is the model's choice (log 21). -/
def Obligations.OversizedPacketCostsOnlyItself : Prop :=
  ∀ (s : State) (closing : Bool) (q r : Delivery), s.rxState = .idle → q.typeId ≠ 0x00#8 →
    s.params.rxCap < (encBytes closing q.payload).length + 1 → s.canReceive closing r →
    ∃ t, feed (wireAll closing [q, r]) s = .next t ∧ t.deliveries = s.deliveries ++ [r] ∧
      t.drops = s.drops ++ [.overflow] ∧ t.rxState = .idle ∧ t.rxLen = 0

/-- R133: where one delimiter is meant to end one packet and start the next, the second packet is lost without a drop,
and the last delimiter is taken as a start marker. -/
def Obligations.SharedDelimiterLosesSecondPacket : Prop :=
  ∀ (s : State) (closing : Bool) (q r : Delivery), s.rxState = .idle → s.canReceive closing q → r.typeId ≠ 0x00#8 →
    ∃ t, feed (wire closing q.typeId q.payload ++ r.typeId :: (encBytes closing r.payload ++ [0x00#8])) s = .next t ∧
      t.deliveries = s.deliveries ++ [q] ∧ t.drops = s.drops ∧ t.rxState = .accumulating ∧ t.rxLen = 0

/-- R173: after a reset in the middle of a stream, bytes before the first delimiter are ignored, and the next packet is
received whether that first delimiter is the packet's own or the end of the packet before it; nothing else is
delivered. -/
def Obligations.JoiningMidStreamLosesNoLaterPacket : Prop :=
  ∀ (s u : State) (noise : Bytes) (closing : Bool) (q : Delivery), exec .reset s = .next u → 0x00#8 ∉ noise →
    s.canReceive closing q →
    (∃ t, feed (noise ++ wire closing q.typeId q.payload) u = .next t ∧ t.deliveries = s.deliveries ++ [q] ∧
      t.drops = s.drops) ∧
    (∃ t, feed (noise ++ 0x00#8 :: wire closing q.typeId q.payload) u = .next t ∧
      t.deliveries = s.deliveries ++ [q] ∧ t.drops = s.drops)

/-! ### The encoder -/

/-- R76: the `ENC` port. A port of its own with this limit is the spec's own decision (D3, D19); that the result is kept
in `responses` is the model's choice (log 10). -/
def Obligations.EncPortEncodesOrRefuses : Prop :=
  ∀ (s : State) (x : Bytes),
    (x.length ≤ s.params.txMaxPayload →
      exec (.enc x) s =
        .next { s with responses := s.responses ++ [.encAccepted (encBytes s.params.encCloseAfterFull x)] }) ∧
    (s.params.txMaxPayload < x.length →
      exec (.enc x) s = .next { s with responses := s.responses ++ [.encRefused .tooLong] })

/-- R71, R72: the encoder as one pass is the encoder by runs, under the default of `ENC_CLOSE_AFTER_FULL` (the spec's own
decision D6, log 4). -/
def Obligations.EncByPassEqualsEncByRuns : Prop :=
  ∀ x : Bytes, encBytes false x = encByRuns x

/-- R73: no byte of an encoding is `0x00`, under either reading of D6. -/
def Obligations.EncodingIsZeroFree : Prop :=
  ∀ (closing : Bool) (x : Bytes), 0x00#8 ∉ encBytes closing x

/-- R74, R36: the bounds of the length of an encoding, and its exact length for an input without zeros, under the
default of `ENC_CLOSE_AFTER_FULL` (the spec's own decision D6, log 4). -/
def Obligations.EncodingLengthBounds : Prop :=
  ∀ x : Bytes,
    x.length + 1 ≤ (encBytes false x).length ∧
    (encBytes false x).length ≤ max 1 (x.length + (x.length + 253) / 254) ∧
    (x ≠ [] → 0x00#8 ∉ x → (encBytes false x).length = x.length + (x.length + 253) / 254)

/-- R78, R100: decoding an encoding gives the input back, for every length and under either reading of D6. -/
def Obligations.DecOfEncIsTheInput : Prop :=
  ∀ (closing : Bool) (x : Bytes), decBytes (encBytes closing x) = .ok x

/-- R75: the encoder is injective. -/
def Obligations.EncIsInjective : Prop :=
  ∀ (closing : Bool) (x x' : Bytes), encBytes closing x = encBytes closing x' → x = x'

/-! ### The decoder -/

/-- R96: the `DEC` port. A port of its own with this limit is the spec's own decision (D19); that the result is kept in
`responses` is the model's choice (log 10). -/
def Obligations.DecPortDecodesOrRefuses : Prop :=
  ∀ (s : State) (y : Bytes),
    (y.length ≤ s.params.rxCap - 1 →
      exec (.dec y) s = .next { s with responses := s.responses ++ [.decResult (decBytes y)] }) ∧
    (s.params.rxCap - 1 < y.length →
      exec (.dec y) s = .next { s with responses := s.responses ++ [.decRefused .tooLong] })

/-- R91: a whole block at the front, with more data after it, contributes its literals and, unless its code is `0xFF`, a
zero byte; a whole block that is all there is contributes its literals alone. -/
def Obligations.DecTakesBlockByBlock : Prop :=
  ∀ (c : Byte) (lits : Bytes), isBlock c lits →
    decBytes (c :: lits) = .ok lits ∧
    ∀ rest, rest ≠ [] →
      (∀ x, decBytes rest = .ok x →
        decBytes (c :: (lits ++ rest)) = .ok (lits ++ (if c = 0xFF#8 then [] else [0x00#8]) ++ x)) ∧
      (∀ r, decBytes rest = .fail r → decBytes (c :: (lits ++ rest)) = .fail r)

/-- R92, R93, R95, R99: the empty input fails with `Empty`; after any whole blocks, a zero code byte fails with
`ZeroCode`, a code byte that announces more literals than remain with `Overrun`, and otherwise a zero among its
literals with `ZeroData`; a block that ends exactly at the end of the input does not fail. The two zero labels and the
order of the checks are the spec's own decisions (D7, D8, D22). -/
def Obligations.DecReportsTheFirstDefect : Prop :=
  decBytes [] = .fail .empty ∧
  ∀ pre : Bytes, WholeBlocks pre → ∀ rest : Bytes,
    decBytes (pre ++ 0x00#8 :: rest) = .fail .zeroCode ∧
    ∀ c : Byte, c ≠ 0x00#8 →
      (rest.length < c.toNat - 1 → decBytes (pre ++ c :: rest) = .fail .overrun) ∧
      (c.toNat - 1 ≤ rest.length → 0x00#8 ∈ rest.take (c.toNat - 1) →
        decBytes (pre ++ c :: rest) = .fail .zeroData) ∧
      (rest.length = c.toNat - 1 → 0x00#8 ∉ rest → ∃ x, decBytes (pre ++ c :: rest) = .ok x)

/-- R94: the output of a successful decode is shorter than its input; so an input of at most `RX_CAP - 1` bytes gives a
payload of at most `RX_CAP - 2`. -/
def Obligations.DecOutputIsShorter : Prop :=
  ∀ y x : Bytes, decBytes y = .ok x →
    x.length + 1 ≤ y.length ∧ ∀ cap, y.length ≤ cap - 1 → x.length ≤ cap - 2

/-- R98: the decoder succeeds exactly on the non-empty zero-free sequences that split into whole blocks; a final block
`[0x01]` after a full block is accepted and adds nothing. -/
def Obligations.DecAcceptsExactlyWholeBlocks : Prop :=
  (∀ y : Bytes, (∃ x, decBytes y = .ok x) ↔ y ≠ [] ∧ 0x00#8 ∉ y ∧ WholeBlocks y) ∧
  ∀ d : Bytes, d.length = 254 → 0x00#8 ∉ d →
    decBytes (0xFF#8 :: d ++ [0x01#8]) = .ok d ∧ decBytes (0xFF#8 :: d) = .ok d

/-- R100, R56: what the decoder accepts is the canonical encoding of its output, or that encoding, ending in a full
block, with one closing `[0x01]`. The canonical encoding is that of the default of `ENC_CLOSE_AFTER_FULL` (the spec's own
decision D6, log 4). -/
def Obligations.DecInputIsCanonicalOrClosed : Prop :=
  ∀ y x : Bytes, decBytes y = .ok x →
    encBytes false x = y ∨ y = encBytes false x ++ [0x01#8] ∧ endsInFullBlock (encBytes false x)

/-! ### The code-byte rows -/

/-- R52, R95: the code byte `0x00` ends a decode with the failure `ZeroCode` (the spec's own decision D7); the storage, the
model's own, is empty again (log 11). -/
def Obligations.CodeZeroFails : Prop :=
  ∀ s : State, exec .codeZero s =
    .next { s with responses := s.responses ++ [.decResult (.fail .zeroCode)], decoder := DecWork.empty }

/-- R52, R91, R93, R95: the code byte `0x01..0xFE`, with what remains of the input in the decoder's storage: too few
bytes end the decode with `Overrun`, a zero literal with `ZeroData`; a block that ends the input ends the decode with
the literals added; otherwise the literals and a zero byte are added and the decode goes on. The storage is the model's
own (log 11), `ZeroData` the spec's own decision D8. -/
def Obligations.CodeRunCopiesLiterals : Prop :=
  ∀ (s : State) (c : Byte), c ≠ 0x00#8 → c ≠ 0xFF#8 →
    (s.decoder.rest.length < c.toNat - 1 →
      exec (.codeRun c) s =
        .next { s with responses := s.responses ++ [.decResult (.fail .overrun)], decoder := DecWork.empty }) ∧
    (∀ lits rest, s.decoder.rest = lits ++ rest → lits.length = c.toNat - 1 →
      (0x00#8 ∈ lits → exec (.codeRun c) s =
        .next { s with responses := s.responses ++ [.decResult (.fail .zeroData)], decoder := DecWork.empty }) ∧
      (0x00#8 ∉ lits → rest = [] → exec (.codeRun c) s =
        .next { s with responses := s.responses ++ [.decResult (.ok (s.decoder.out ++ lits))],
                       decoder := DecWork.empty }) ∧
      (0x00#8 ∉ lits → rest ≠ [] → exec (.codeRun c) s =
        .next { s with decoder := ⟨rest, s.decoder.out ++ lits ++ [0x00#8]⟩ }))

/-- R52, R91: the code byte `0xFF`: as a run of 254 literals, but no zero byte is ever added (log 11, D8 as above). -/
def Obligations.CodeFullCopies254Literals : Prop :=
  ∀ s : State,
    (s.decoder.rest.length < 254 →
      exec .codeFull s =
        .next { s with responses := s.responses ++ [.decResult (.fail .overrun)], decoder := DecWork.empty }) ∧
    (∀ lits rest, s.decoder.rest = lits ++ rest → lits.length = 254 →
      (0x00#8 ∈ lits → exec .codeFull s =
        .next { s with responses := s.responses ++ [.decResult (.fail .zeroData)], decoder := DecWork.empty }) ∧
      (0x00#8 ∉ lits → rest = [] → exec .codeFull s =
        .next { s with responses := s.responses ++ [.decResult (.ok (s.decoder.out ++ lits))],
                       decoder := DecWork.empty }) ∧
      (0x00#8 ∉ lits → rest ≠ [] → exec .codeFull s =
        .next { s with decoder := ⟨rest, s.decoder.out ++ lits⟩ }))

/-- R91: a non-empty input placed in the decoder's storage is decoded by some number of steps, at most the input's length,
with the result that `dec` has in one operation. The storage is the model's own (log 11). -/
def Obligations.CodeByteStepsComputeDec : Prop :=
  ∀ (s : State) (y : Bytes), y ≠ [] → s.host = [] →
    ∃ k, k ≤ y.length ∧ core.run k { s with decoder := ⟨y, []⟩ } =
      .next { s with responses := s.responses ++ [.decResult (decBytes y)], decoder := DecWork.empty }

/-! ### The transmit framer -/

/-- R111, R112: `TXP` appends the whole image of the packet, or refuses a zero type-id first and a payload that is too
long second, sending nothing. The refusals are the spec's own decisions D14 and D15; that the results are kept in `responses`
is the model's choice (log 10). -/
def Obligations.TxpSendsWholePacketOrRefuses : Prop :=
  ∀ (s : State) (t : Byte) (p : Bytes),
    (t ≠ 0x00#8 → p.length ≤ s.params.txMaxPayload →
      exec (.txp t p) s =
        .next { s with
          txOut := s.txOut ++ ([0x00#8, t] ++ encBytes s.params.encCloseAfterFull p ++ [0x00#8]),
          responses := s.responses ++ [.txpAccepted] }) ∧
    (t = 0x00#8 → exec (.txp t p) s = .next { s with responses := s.responses ++ [.txpRefused .zeroType] }) ∧
    (t ≠ 0x00#8 → s.params.txMaxPayload < p.length →
      exec (.txp t p) s = .next { s with responses := s.responses ++ [.txpRefused .tooLong] })

/-- R114, R115: the image of a packet is three bytes longer than its encoding, and of its bytes exactly the first and the
last are `0x00`, under the default of `ENC_CLOSE_AFTER_FULL` (the spec's own decision D6, log 4), without which the upper
bound of the length does not hold. -/
def Obligations.WireImageDelimitersAndLength : Prop :=
  ∀ (t : Byte) (p : Bytes), t ≠ 0x00#8 →
    (wire false t p).length = (encBytes false p).length + 3 ∧
    p.length + 4 ≤ (wire false t p).length ∧
    (wire false t p).length ≤ max 4 (p.length + (p.length + 253) / 254 + 3) ∧
    ∀ i, i < (wire false t p).length →
      ((wire false t p)[i]? = some 0x00#8 ↔ i = 0 ∨ i + 1 = (wire false t p).length)

/-! ### The whole machine -/

/-- R24: the global invariants hold after reset, for every choice of the parameters. -/
def Obligations.GlobalInvariantAtReset : Prop :=
  ∀ p : Params, (State.boot p).globalInv ∧ (State.boot p).deliveriesFit

/-- R24: the global invariants hold after reset, and every step keeps them, from every state that meets them. -/
def Obligations.GlobalInvariantIsKept : Prop :=
  (∀ p : Params, (State.boot p).globalInv) ∧
  ∀ s t : State, s.globalInv → step s = .next t → t.globalInv

/-- R14, R36, R125: every step keeps it so that whatever has been delivered has a non-zero recognised type-id and at most
`RX_CAP - 2` bytes. -/
def Obligations.DeliveriesFitIsKept : Prop :=
  ∀ s t : State, s.parserInv → s.deliveriesFit → step s = .next t → t.deliveriesFit

/-- R13, R33: every step keeps the list of the cells of `RXBUF` in its canonical form and inside `0..RX_CAP-1`. -/
def Obligations.BufferFormIsKept : Prop :=
  ∀ s t : State, Memory.wf s.rxBuf = true → (∀ c ∈ s.rxBuf, c.1 < s.params.rxCap) → step s = .next t →
    Memory.wf t.rxBuf = true ∧ ∀ c ∈ t.rxBuf, c.1 < t.params.rxCap

/-- R16: the decoder's storage, the model's own (log 11), is empty between operations: every step keeps it so. -/
def Obligations.DecoderStorageStaysEmpty : Prop :=
  ∀ s t : State, s.decoder = DecWork.empty → step s = .next t → t.decoder = DecWork.empty

/-- R5: no step changes a parameter. -/
def Obligations.ParametersNeverChange : Prop :=
  ∀ s t : State, step s = .next t → t.params = s.params

/-- R152, R174: in every state that meets the parser's invariants a step answers a next state: nothing is fatal. -/
def Obligations.NothingIsFatal : Prop :=
  ∀ s : State, s.parserInv → ∃ t, step s = .next t

/-- R17, R18, R19, R34: no step removes anything from a history. The trace of results is the model's own (log 10). -/
def Obligations.HistoriesOnlyGrow : Prop :=
  ∀ s t : State, step s = .next t →
    s.txOut <+: t.txOut ∧ s.deliveries <+: t.deliveries ∧ s.drops <+: t.drops ∧ s.responses <+: t.responses

/-- R17, R19: nothing reads a history: with an earlier history put in front, every step does what it does without it. The
trace of results is the model's own (log 10). -/
def Obligations.HistoriesAreNeverRead : Prop :=
  ∀ (s : State) (h : Histories), step (s.withEarlier h) = mapNext (State.withEarlier h) (step s)

/-- R13: no behaviour depends on a cell of `RXBUF` at or above `RX_LEN`: two states that differ only there have outcomes
that differ only there. -/
def Obligations.UnreadableCellsDoNotMatter : Prop :=
  ∀ s u : State, sameBelowRxLen s u → sameOutcome sameBelowRxLen (step s) (step u)

/-- R37, R154: the order in which a byte is received and a request is served does not matter. -/
def Obligations.ReceiveAndPortRequestsCommute : Prop :=
  ∀ (s u v : State) (b t : Byte) (p : Bytes), ∀ j ∈ [Instr.txp t p, Instr.enc p, Instr.dec p],
    exec (.rxb b) s = .next u → exec j s = .next v →
    ∃ w, exec j u = .next w ∧ exec (.rxb b) v = .next w

/-- The frame of the rows of the receive agent: parameters, `TX_OUT`, results, the host's input and the decoder's storage
are unchanged; the only cell that can change is the one at `RX_LEN`, and it changes only in the append case
(R120, R33). The trace of results and the decoder's storage are the model's own (log 10, 11). -/
def Obligations.ReceiveFrame : Prop :=
  ∀ (i : Instr) (b : Byte) (s t : State), receivedByte i = some b → exec i s = .next t →
    t.params = s.params ∧ t.txOut = s.txOut ∧ t.responses = s.responses ∧ t.host = s.host ∧
    t.decoder = s.decoder ∧ (caseOf s b ≠ .append → t.rxBuf = s.rxBuf) ∧
    (∀ j, j ≠ s.rxLen → cellAt t.rxBuf j = cellAt s.rxBuf j) ∧
    (caseOf s b ≠ .packetEnd → t.deliveries = s.deliveries)

/-- The frame of all the other rows (`RESET`, `ENC`, `DEC`, `TXP`, the code bytes): no cell of `RXBUF`, no delivery,
no drop, no parameter and nothing of the host's input changes; only `RESET` writes the parser's registers, only `TXP`
appends to `TX_OUT`, and only `RESET` and the code bytes write the decoder's storage (R16, R17, R18, R120). R23 and
R170 leave every cell of `RXBUF` unspecified after `RESET`: that `RESET` keeps the cells is the model's choice (log
6), and they cannot be read then. The decoder's storage is the model's own (log 11). -/
def Obligations.PortAndCodeFrame : Prop :=
  ∀ (i : Instr) (s t : State), receivedByte i = none → exec i s = .next t →
    t.params = s.params ∧ (∀ j, cellAt t.rxBuf j = cellAt s.rxBuf j) ∧ t.rxBuf = s.rxBuf ∧
    t.deliveries = s.deliveries ∧ t.drops = s.drops ∧ t.host = s.host ∧
    (i ≠ .reset → t.rxState = s.rxState ∧ t.rxLen = s.rxLen) ∧
    ((∀ ty p, i ≠ .txp ty p) → t.txOut = s.txOut) ∧
    (i = .reset → t.responses = s.responses) ∧
    ((∃ ty p, i = .txp ty p) ∨ (∃ x, i = .enc x) ∨ (∃ y, i = .dec y) → t.decoder = s.decoder)
end

