-- ==== Sys2Proof/Laws/State.lean ====
section
/-! SUPPORT. What each named update of the state does to each field: one lemma per field per update. -/

namespace Sys2Proof.Machine

variable (s : State)

/-! ### `State.withBuf` -/

@[simp] theorem withBuf_params (m : List Host.Cell) : (s.withBuf m).params = s.params := rfl
@[simp] theorem withBuf_rxState (m : List Host.Cell) : (s.withBuf m).rxState = s.rxState := rfl
@[simp] theorem withBuf_rxLen (m : List Host.Cell) : (s.withBuf m).rxLen = s.rxLen := rfl
@[simp] theorem withBuf_rxBuf (m : List Host.Cell) : (s.withBuf m).rxBuf = m := rfl
@[simp] theorem withBuf_txOut (m : List Host.Cell) : (s.withBuf m).txOut = s.txOut := rfl
@[simp] theorem withBuf_deliveries (m : List Host.Cell) : (s.withBuf m).deliveries = s.deliveries := rfl
@[simp] theorem withBuf_drops (m : List Host.Cell) : (s.withBuf m).drops = s.drops := rfl
@[simp] theorem withBuf_responses (m : List Host.Cell) : (s.withBuf m).responses = s.responses := rfl
@[simp] theorem withBuf_host (m : List Host.Cell) : (s.withBuf m).host = s.host := rfl
@[simp] theorem withBuf_decoder (m : List Host.Cell) : (s.withBuf m).decoder = s.decoder := rfl

/-! ### `State.withParser` -/

@[simp] theorem withParser_params (st : RxState) (n : Nat) : (s.withParser st n).params = s.params := rfl
@[simp] theorem withParser_rxState (st : RxState) (n : Nat) : (s.withParser st n).rxState = st := rfl
@[simp] theorem withParser_rxLen (st : RxState) (n : Nat) : (s.withParser st n).rxLen = n := rfl
@[simp] theorem withParser_rxBuf (st : RxState) (n : Nat) : (s.withParser st n).rxBuf = s.rxBuf := rfl
@[simp] theorem withParser_txOut (st : RxState) (n : Nat) : (s.withParser st n).txOut = s.txOut := rfl
@[simp] theorem withParser_deliveries (st : RxState) (n : Nat) : (s.withParser st n).deliveries = s.deliveries := rfl
@[simp] theorem withParser_drops (st : RxState) (n : Nat) : (s.withParser st n).drops = s.drops := rfl
@[simp] theorem withParser_responses (st : RxState) (n : Nat) : (s.withParser st n).responses = s.responses := rfl
@[simp] theorem withParser_host (st : RxState) (n : Nat) : (s.withParser st n).host = s.host := rfl
@[simp] theorem withParser_decoder (st : RxState) (n : Nat) : (s.withParser st n).decoder = s.decoder := rfl

/-! ### `State.withDecoder` -/

@[simp] theorem withDecoder_params (w : DecWork) : (s.withDecoder w).params = s.params := rfl
@[simp] theorem withDecoder_rxState (w : DecWork) : (s.withDecoder w).rxState = s.rxState := rfl
@[simp] theorem withDecoder_rxLen (w : DecWork) : (s.withDecoder w).rxLen = s.rxLen := rfl
@[simp] theorem withDecoder_rxBuf (w : DecWork) : (s.withDecoder w).rxBuf = s.rxBuf := rfl
@[simp] theorem withDecoder_txOut (w : DecWork) : (s.withDecoder w).txOut = s.txOut := rfl
@[simp] theorem withDecoder_deliveries (w : DecWork) : (s.withDecoder w).deliveries = s.deliveries := rfl
@[simp] theorem withDecoder_drops (w : DecWork) : (s.withDecoder w).drops = s.drops := rfl
@[simp] theorem withDecoder_responses (w : DecWork) : (s.withDecoder w).responses = s.responses := rfl
@[simp] theorem withDecoder_host (w : DecWork) : (s.withDecoder w).host = s.host := rfl
@[simp] theorem withDecoder_decoder (w : DecWork) : (s.withDecoder w).decoder = w := rfl

/-! ### `State.withHost` -/

@[simp] theorem withHost_params (h : List Moment) : (s.withHost h).params = s.params := rfl
@[simp] theorem withHost_rxState (h : List Moment) : (s.withHost h).rxState = s.rxState := rfl
@[simp] theorem withHost_rxLen (h : List Moment) : (s.withHost h).rxLen = s.rxLen := rfl
@[simp] theorem withHost_rxBuf (h : List Moment) : (s.withHost h).rxBuf = s.rxBuf := rfl
@[simp] theorem withHost_txOut (h : List Moment) : (s.withHost h).txOut = s.txOut := rfl
@[simp] theorem withHost_deliveries (h : List Moment) : (s.withHost h).deliveries = s.deliveries := rfl
@[simp] theorem withHost_drops (h : List Moment) : (s.withHost h).drops = s.drops := rfl
@[simp] theorem withHost_responses (h : List Moment) : (s.withHost h).responses = s.responses := rfl
@[simp] theorem withHost_host (h : List Moment) : (s.withHost h).host = h := rfl
@[simp] theorem withHost_decoder (h : List Moment) : (s.withHost h).decoder = s.decoder := rfl

/-! ### `emitTx` -/

@[simp] theorem emitTx_params (bs : Bytes) : (emitTx bs s).params = s.params := rfl
@[simp] theorem emitTx_rxState (bs : Bytes) : (emitTx bs s).rxState = s.rxState := rfl
@[simp] theorem emitTx_rxLen (bs : Bytes) : (emitTx bs s).rxLen = s.rxLen := rfl
@[simp] theorem emitTx_rxBuf (bs : Bytes) : (emitTx bs s).rxBuf = s.rxBuf := rfl
@[simp] theorem emitTx_txOut (bs : Bytes) : (emitTx bs s).txOut = s.txOut ++ bs := rfl
@[simp] theorem emitTx_deliveries (bs : Bytes) : (emitTx bs s).deliveries = s.deliveries := rfl
@[simp] theorem emitTx_drops (bs : Bytes) : (emitTx bs s).drops = s.drops := rfl
@[simp] theorem emitTx_responses (bs : Bytes) : (emitTx bs s).responses = s.responses := rfl
@[simp] theorem emitTx_host (bs : Bytes) : (emitTx bs s).host = s.host := rfl
@[simp] theorem emitTx_decoder (bs : Bytes) : (emitTx bs s).decoder = s.decoder := rfl

/-! ### `deliver` -/

@[simp] theorem deliver_params (t : Byte) (p : Bytes) : (deliver t p s).params = s.params := rfl
@[simp] theorem deliver_rxState (t : Byte) (p : Bytes) : (deliver t p s).rxState = s.rxState := rfl
@[simp] theorem deliver_rxLen (t : Byte) (p : Bytes) : (deliver t p s).rxLen = s.rxLen := rfl
@[simp] theorem deliver_rxBuf (t : Byte) (p : Bytes) : (deliver t p s).rxBuf = s.rxBuf := rfl
@[simp] theorem deliver_txOut (t : Byte) (p : Bytes) : (deliver t p s).txOut = s.txOut := rfl
@[simp] theorem deliver_deliveries (t : Byte) (p : Bytes) : (deliver t p s).deliveries = s.deliveries ++ [⟨t, p⟩] := rfl
@[simp] theorem deliver_drops (t : Byte) (p : Bytes) : (deliver t p s).drops = s.drops := rfl
@[simp] theorem deliver_responses (t : Byte) (p : Bytes) : (deliver t p s).responses = s.responses := rfl
@[simp] theorem deliver_host (t : Byte) (p : Bytes) : (deliver t p s).host = s.host := rfl
@[simp] theorem deliver_decoder (t : Byte) (p : Bytes) : (deliver t p s).decoder = s.decoder := rfl

/-! ### `drop` -/

@[simp] theorem drop_params (r : DropLabel) : (drop r s).params = s.params := rfl
@[simp] theorem drop_rxState (r : DropLabel) : (drop r s).rxState = s.rxState := rfl
@[simp] theorem drop_rxLen (r : DropLabel) : (drop r s).rxLen = s.rxLen := rfl
@[simp] theorem drop_rxBuf (r : DropLabel) : (drop r s).rxBuf = s.rxBuf := rfl
@[simp] theorem drop_txOut (r : DropLabel) : (drop r s).txOut = s.txOut := rfl
@[simp] theorem drop_deliveries (r : DropLabel) : (drop r s).deliveries = s.deliveries := rfl
@[simp] theorem drop_drops (r : DropLabel) : (drop r s).drops = s.drops ++ [r] := rfl
@[simp] theorem drop_responses (r : DropLabel) : (drop r s).responses = s.responses := rfl
@[simp] theorem drop_host (r : DropLabel) : (drop r s).host = s.host := rfl
@[simp] theorem drop_decoder (r : DropLabel) : (drop r s).decoder = s.decoder := rfl

/-! ### `respond` -/

@[simp] theorem respond_params (r : Response) : (respond r s).params = s.params := rfl
@[simp] theorem respond_rxState (r : Response) : (respond r s).rxState = s.rxState := rfl
@[simp] theorem respond_rxLen (r : Response) : (respond r s).rxLen = s.rxLen := rfl
@[simp] theorem respond_rxBuf (r : Response) : (respond r s).rxBuf = s.rxBuf := rfl
@[simp] theorem respond_txOut (r : Response) : (respond r s).txOut = s.txOut := rfl
@[simp] theorem respond_deliveries (r : Response) : (respond r s).deliveries = s.deliveries := rfl
@[simp] theorem respond_drops (r : Response) : (respond r s).drops = s.drops := rfl
@[simp] theorem respond_responses (r : Response) : (respond r s).responses = s.responses ++ [r] := rfl
@[simp] theorem respond_host (r : Response) : (respond r s).host = s.host := rfl
@[simp] theorem respond_decoder (r : Response) : (respond r s).decoder = s.decoder := rfl

end Sys2Proof.Machine
end

