-- ==== Sys2Proof/Laws/Buffer.lean ====
section
/-! SUPPORT. The laws of `RXBUF`: a read after a write, the canonical form, and what the two buffer primitives answer. -/

namespace Sys2Proof.Machine

@[simp] theorem cellAt_setCell_self (m : List Host.Cell) (i : Nat) (b : Byte) : cellAt (setCell m i b) i = some b := by
  induction m with
  | nil => simp [setCell, cellAt]
  | cons c m ih =>
    obtain ⟨j, c⟩ := c
    simp only [setCell]
    split
    · simp [cellAt]
    · split
      · simp [cellAt]
      · rename_i h1 h2
        simp [cellAt, Ne.symm h2, ih]

theorem cellAt_setCell_of_ne {m : List Host.Cell} {i j : Nat} {b : Byte} (h : j ≠ i) :
    cellAt (setCell m i b) j = cellAt m j := by
  induction m with
  | nil => simp [setCell, cellAt, Ne.symm h]
  | cons c m ih =>
    obtain ⟨k, c⟩ := c
    simp only [setCell]
    split
    · simp [cellAt, Ne.symm h]
    · split
      · rename_i h2
        subst h2
        simp [cellAt, Ne.symm h]
      · simp only [cellAt, ih]

/-- The indices listed after a write are those listed before and the one written. -/
theorem mem_keys_setCell {m : List Host.Cell} {i k : Nat} {b : Byte} :
    k ∈ (setCell m i b).map Prod.fst ↔ k = i ∨ k ∈ m.map Prod.fst := by
  induction m with
  | nil => simp [setCell]
  | cons c m ih =>
    obtain ⟨j, c⟩ := c
    simp only [setCell]
    split
    · simp
    · split
      · rename_i h2
        subst h2
        simp
      · simp only [List.map_cons, List.mem_cons, ih]
        tauto

/-- A write keeps the canonical form. -/
theorem setCell_wf {m : List Host.Cell} (i : Nat) (b : Byte) (h : Memory.wf m = true) :
    Memory.wf (setCell m i b) = true := by
  simp only [Memory.wf, decide_eq_true_eq] at h ⊢
  induction m with
  | nil => simp [setCell]
  | cons c m ih =>
    obtain ⟨j, c⟩ := c
    obtain ⟨hj, hm⟩ := List.pairwise_cons.mp (List.map_cons ▸ h)
    simp only [setCell]
    split
    · rename_i hij
      simp only [List.map_cons, List.pairwise_cons, List.mem_cons, forall_eq_or_imp]
      exact ⟨⟨hij, fun k hk => hij.trans (hj k hk)⟩, hj, hm⟩
    · split
      · rename_i h2
        subst h2
        simpa using h
      · simp only [List.map_cons, List.pairwise_cons]
        refine ⟨fun k hk => ?_, ih hm⟩
        rcases mem_keys_setCell.mp hk with rfl | hk
        · omega
        · exact hj k hk

/-- A write below a bound keeps every listed index below it. -/
theorem setCell_below {m : List Host.Cell} {i cap : Nat} {b : Byte} (hi : i < cap) (h : ∀ c ∈ m, c.1 < cap) :
    ∀ c ∈ setCell m i b, c.1 < cap := by
  intro c hc
  rcases mem_keys_setCell.mp (List.mem_map_of_mem (f := Prod.fst) hc) with h1 | h1
  · omega
  · obtain ⟨d, hd, e⟩ := List.mem_map.mp h1
    exact e ▸ h d hd

/-- The buffer of the state after reset is in its canonical form. -/
theorem boot_wf (p : Params) : Memory.wf (State.boot p).rxBuf = true := rfl

/-- `MemRead` answers a byte exactly inside the buffer, below `RX_LEN`, from a written cell. -/
theorem readCell_ok_iff {s : State} {i : Nat} {b : Byte} :
    readCell s i = .ok b ↔ i < s.params.rxCap ∧ i < s.rxLen ∧ cellAt s.rxBuf i = some b := by
  unfold readCell
  split
  · simp only [reduceCtorEq, false_iff]; omega
  · split
    · simp only [reduceCtorEq, false_iff]; omega
    · split <;> simp_all

/-- A whole-buffer read of cells that hold `bs` answers `bs`. -/
theorem readCells_eq {s : State} {bs : Bytes} {i : Nat}
    (h : ∀ k, k < bs.length → ∃ b, bs[k]? = some b ∧ readCell s (i + k) = .ok b) :
    readCells s i bs.length = .ok bs := by
  induction bs generalizing i with
  | nil => rfl
  | cons b bs ih =>
    have h0 : readCell s i = .ok b := by
      obtain ⟨c, hc, hr⟩ := h 0 (by simp)
      simp at hc; subst hc; simpa using hr
    have h1 : readCells s (i + 1) bs.length = .ok bs := by
      refine ih fun k hk => ?_
      obtain ⟨c, hc, hr⟩ := h (k + 1) (by simpa using hk)
      exact ⟨c, by simpa using hc, by rwa [show i + 1 + k = i + (k + 1) by omega]⟩
    simp [readCells, h0, h1]

/-- What a whole-buffer read that answers has read. -/
theorem readCells_ok {s : State} {n i : Nat} {bs : Bytes} (h : readCells s i n = .ok bs) :
    bs.length = n ∧ ∀ k, k < n → ∃ b, bs[k]? = some b ∧ readCell s (i + k) = .ok b := by
  induction n generalizing i bs with
  | zero => simp [readCells] at h; simp [← h]
  | succ n ih =>
    simp only [readCells] at h
    split at h
    · cases h
    · rename_i b hb
      split at h
      · cases h
      · rename_i cs hcs
        cases h
        obtain ⟨hl, hk⟩ := ih hcs
        refine ⟨by simp [hl], fun k hk' => ?_⟩
        cases k with
        | zero => exact ⟨b, by simp, by simpa using hb⟩
        | succ k =>
          obtain ⟨c, hc, hr⟩ := hk k (by omega)
          exact ⟨c, by simpa using hc, by rwa [show i + (k + 1) = i + 1 + k by omega]⟩

/-- A parser that holds `t :: y` within its capacity reads `t` and `y` back. -/
theorem read_of_holds {s : State} {t : Byte} {y : Bytes} (h : s.holds (t :: y)) (hcap : s.rxLen ≤ s.params.rxCap) :
    readCell s 0 = .ok t ∧ readCells s 1 (s.rxLen - 1) = .ok y := by
  obtain ⟨hl, hc⟩ := h
  simp only [List.length_cons] at hl hc
  refine ⟨readCell_ok_iff.mpr ⟨by omega, by omega, by simpa using hc 0 (by omega)⟩, ?_⟩
  rw [show s.rxLen - 1 = y.length by omega]
  refine readCells_eq fun k hk => ⟨y[k], by simp, readCell_ok_iff.mpr ⟨by omega, by omega, ?_⟩⟩
  simpa [show 1 + k = k + 1 by omega, hk] using hc (1 + k) (by omega)

/-- In a state that meets the parser's invariants the buffer holds a sequence of non-zero bytes. -/
theorem holds_of_parserInv {s : State} (h : s.parserInv) : ∃ bs, s.holds bs ∧ 0x00#8 ∉ bs := by
  obtain ⟨-, -, hc⟩ := h
  have key : ∀ n, n ≤ s.rxLen →
      ∃ bs : Bytes, bs.length = n ∧ (∀ i, i < n → cellAt s.rxBuf i = bs[i]?) ∧ 0x00#8 ∉ bs := by
    intro n
    induction n with
    | zero => exact fun _ => ⟨[], rfl, by simp, by simp⟩
    | succ n ih =>
      intro hn
      obtain ⟨bs, hl, hb, hz⟩ := ih (by omega)
      obtain ⟨b, hb', hne⟩ := hc n (by omega)
      refine ⟨bs ++ [b], by simp [hl], fun i hi => ?_, by simp [hz, Ne.symm hne]⟩
      rcases Nat.lt_succ_iff_lt_or_eq.mp hi with h1 | rfl
      · rw [hb i h1, List.getElem?_append_left (by omega)]
      · rw [hb', List.getElem?_append_right (by omega)]; simp [hl]
  obtain ⟨bs, hl, hb, hz⟩ := key s.rxLen le_rfl
  exact ⟨bs, ⟨hl.symm, fun i hi => hb i (by omega)⟩, hz⟩

/-- `MemWrite` inside the buffer. -/
theorem writeCell_of_lt {s : State} {i : Nat} {b : Byte} (h : i < s.params.rxCap) :
    writeCell s i b = .ok (s.withBuf (setCell s.rxBuf i b)) := by
  simp [writeCell, Nat.not_le.mpr h]

end Sys2Proof.Machine
end

