-- ==== Sys2Proof/Laws/Codec.lean ====
section
/-! SUPPORT. The codec without its accumulators: the encoder as a function of the pending block, the decoder's loop
without its fuel and with its output taken out in front, and what one iteration of it does with a block. -/

namespace Sys2Proof.Machine

/-! ### The encoder -/

/-- The rest of `enc` from a pending block `blk` on, its output so far left out. -/
def encFrom (closing : Bool) (blk : Bytes) (fin : Bool) (x : Bytes) : Bytes :=
  encFinish closing (x.foldl encByte ⟨[], blk, fin⟩)

theorem encBytes_eq_encFrom (closing : Bool) (x : Bytes) : encBytes closing x = encFrom closing [] true x := rfl

/-- The output so far stays in front. -/
theorem enc_out_prefix (closing : Bool) (out blk : Bytes) (fin : Bool) (x : Bytes) :
    encFinish closing (x.foldl encByte ⟨out, blk, fin⟩) = out ++ encFrom closing blk fin x := by
  unfold encFrom
  induction x generalizing out blk fin with
  | nil => cases h : (fin || closing) <;> simp [encFinish, closeBlock, h]
  | cons b x ih =>
    simp only [List.foldl_cons, encByte, closeBlock, List.nil_append]
    split
    · rw [ih, ih (runCode blk.length :: blk)]; simp
    · split
      · rw [ih, ih (0xFF#8 :: (blk ++ [b]))]; simp
      · exact ih ..

theorem encFrom_nil (closing : Bool) (blk : Bytes) (fin : Bool) :
    encFrom closing blk fin [] = if fin || closing then runCode blk.length :: blk else [] := by
  simp [encFrom, encFinish, closeBlock]

theorem encFrom_zero (closing : Bool) (blk : Bytes) (fin : Bool) (x : Bytes) :
    encFrom closing blk fin (0x00#8 :: x) = runCode blk.length :: (blk ++ encFrom closing [] true x) := by
  rw [encFrom, List.foldl_cons, encByte, if_pos rfl, enc_out_prefix]
  simp [closeBlock]

theorem encFrom_full (closing : Bool) {blk : Bytes} (fin : Bool) {b : Byte} (x : Bytes) (hb : b ≠ 0x00#8)
    (hl : blk.length = 253) :
    encFrom closing blk fin (b :: x) = 0xFF#8 :: (blk ++ b :: encFrom closing [] false x) := by
  rw [encFrom, List.foldl_cons, encByte, if_neg hb, if_pos (by simp [hl, fullLiterals]), enc_out_prefix]
  simp

theorem encFrom_data (closing : Bool) {blk : Bytes} (fin : Bool) {b : Byte} (x : Bytes) (hb : b ≠ 0x00#8)
    (hl : blk.length < 253) : encFrom closing blk fin (b :: x) = encFrom closing (blk ++ [b]) true x := by
  rw [encFrom, List.foldl_cons, encByte, if_neg hb, if_neg (by simp only [fullLiterals]; omega)]
  rfl

/-- The code of a run of at most 253 literals is neither `0x00` nor `0xFF`, and announces the run's literals. -/
theorem runCode_spec {n : Nat} (h : n ≤ 253) :
    runCode n ≠ 0x00#8 ∧ runCode n ≠ 0xFF#8 ∧ literalCount (runCode n) = n := by
  have ht : (runCode n).toNat = n + 1 := by
    rw [runCode, BitVec.toNat_ofNat, Nat.mod_eq_of_lt (by omega)]
  refine ⟨fun e => ?_, fun e => ?_, by simp [literalCount, ht]⟩
  · rw [e] at ht; simp at ht
  · rw [e] at ht; simp at ht; omega

/-! ### The decoder -/

/-- The bytes put in front of the output of a decode that succeeds. -/
def DecResult.after (o : Bytes) : DecResult → DecResult
  | .ok x => .ok (o ++ x)
  | .fail r => .fail r

/-- One iteration with the output so far taken out in front. -/
theorem takeBlock_out (n : Nat) (z : Bool) (rest o : Bytes) :
    takeBlock n z ⟨rest, o⟩ =
      match takeBlock n z ⟨rest, []⟩ with
      | .done r => .done (r.after o)
      | .more w => .more ⟨w.rest, o ++ w.out⟩ := by
  unfold takeBlock
  simp only
  split
  · rfl
  · split
    · rfl
    · split <;> simp [DecResult.after]

theorem codeStep_out (c : Byte) (rest o : Bytes) :
    codeStep c ⟨rest, o⟩ =
      match codeStep c ⟨rest, []⟩ with
      | .done r => .done (r.after o)
      | .more w => .more ⟨w.rest, o ++ w.out⟩ := by
  unfold codeStep
  cases codeClass c
  · rfl
  · exact takeBlock_out ..
  · exact takeBlock_out ..

/-- An iteration that goes on leaves a non-empty, shorter input. -/
theorem codeStep_more {c : Byte} {w w' : DecWork} (h : codeStep c w = .more w') :
    w'.rest ≠ [] ∧ w'.rest.length ≤ w.rest.length := by
  have key : ∀ n z, takeBlock n z w = .more w' → w'.rest ≠ [] ∧ w'.rest.length ≤ w.rest.length := by
    intro n z h
    unfold takeBlock at h
    split at h
    · cases h
    · split at h
      · cases h
      · split at h
        · cases h
        · rename_i b rest hd
          cases h
          refine ⟨by simp, ?_⟩
          rw [← hd, List.length_drop]
          omega
  unfold codeStep at h
  cases hc : codeClass c <;> rw [hc] at h
  · cases h
  · exact key _ _ h
  · exact key _ _ h

/-- The loop with the output so far taken out in front. -/
theorem decLoop_out (fuel : Nat) (rest o : Bytes) :
    decLoop fuel ⟨rest, o⟩ = (decLoop fuel ⟨rest, []⟩).after o := by
  induction fuel generalizing rest o with
  | zero => simp [decLoop, DecResult.after]
  | succ fuel ih =>
    unfold decLoop
    cases rest with
    | nil => simp [DecResult.after]
    | cons c rest =>
      simp only
      rw [codeStep_out]
      cases codeStep c ⟨rest, []⟩ with
      | done r => rfl
      | more w =>
        simp only
        rw [ih, ih w.rest w.out]
        cases decLoop fuel ⟨w.rest, []⟩ <;> simp [DecResult.after]

/-- Any two amounts of fuel that cover the input give the same result. -/
theorem decLoop_fuel {f g : Nat} {w : DecWork} (hf : w.rest.length ≤ f) (hg : w.rest.length ≤ g) :
    decLoop f w = decLoop g w := by
  induction f generalizing g w with
  | zero =>
    have hr : w.rest = [] := List.length_eq_zero_iff.mp (by omega)
    cases g <;> simp [decLoop, hr]
  | succ f ih =>
    obtain ⟨rest, out⟩ := w
    cases rest with
    | nil => cases g <;> simp [decLoop]
    | cons c rest =>
      cases g with
      | zero => simp at hg
      | succ g =>
        simp only [List.length_cons] at hf hg
        simp only [decLoop]
        cases hs : codeStep c ⟨rest, out⟩ with
        | done r => rfl
        | more w' =>
          have hm := (codeStep_more hs).2
          simp only at hm
          exact ih (by omega) (by omega)

/-- The first iteration of `dec` on a non-empty input, and the rest of the decode, as a `dec` of its own, behind it. -/
theorem decBytes_cons (c : Byte) (rest : Bytes) :
    decBytes (c :: rest) =
      match codeStep c ⟨rest, []⟩ with
      | .done r => r
      | .more w => (decBytes w.rest).after w.out := by
  simp only [decBytes, List.length_cons, decLoop]
  cases hs : codeStep c ⟨rest, []⟩ with
  | done r => rfl
  | more w =>
    obtain ⟨rest', out⟩ := w
    obtain ⟨hne, hl⟩ := codeStep_more hs
    simp only at hne hl ⊢
    rw [decLoop_out, decLoop_fuel hl (le_refl _)]
    cases rest' with
    | nil => exact absurd rfl hne
    | cons d rest' => rfl

/-- The literals that a code byte other than `0x00` announces, as `codeStep` counts them. -/
theorem codeStep_of_ne {c : Byte} (h : c ≠ 0x00#8) (w : DecWork) :
    codeStep c w = takeBlock (literalCount c) (decide (c ≠ 0xFF#8)) w := by
  unfold codeStep codeClass
  by_cases hf : c = 0xFF#8
  · subst hf; rfl
  · simp [h, hf]

/-- A whole zero-free block is taken as R91 says. -/
theorem takeBlock_of_lits {n : Nat} {z : Bool} {lits rest out : Bytes} (hl : lits.length = n) (h0 : 0x00#8 ∉ lits) :
    takeBlock n z ⟨lits ++ rest, out⟩ =
      if rest = [] then .done (.ok (out ++ lits))
      else .more ⟨rest, out ++ lits ++ if z then [0x00#8] else []⟩ := by
  subst hl
  unfold takeBlock
  rw [if_neg (by simp), if_neg (by simpa using h0)]
  cases rest <;> simp

end Sys2Proof.Machine
end

