-- ==== Sys2Proof/Laws/Config.lean ====
section
/-! SUPPORT. The type-ids of the instance that `State.reset` belongs to are non-zero and distinct by construction (log 2). -/

namespace Sys2Proof

theorem typeId_ne_zero (k : Fin 255) : Config.typeId k ≠ 0x00#8 := by
  intro h
  have := congrArg BitVec.toNat h
  simp only [Config.typeId, BitVec.toNat_ofNat] at this
  omega

theorem typeId_injective (j k : Fin 255) (h : Config.typeId j = Config.typeId k) : j = k := by
  have := congrArg BitVec.toNat h
  simp only [Config.typeId, BitVec.toNat_ofNat] at this
  exact Config.typeIdOrder.injective (Fin.ext (by omega))

end Sys2Proof
end

