-- ==== Sys2Proof/Laws/PerInstr.lean ====
section
/-! SUPPORT. One family of facts about the instruction as syntax, one lemma per constructor: the bytes of a well-formed
operation match the pattern that opcode_table.json gives its row (R63). -/

namespace Sys2Proof.Laws.RowPattern

/-- Every byte of the operation matches its row's pattern. -/
def Statement (i : Instr) : Prop :=
  i.wellFormed = true → ∀ r, tablePattern i = some r → ∀ b ∈ encode i, matchesPattern r b = true

/-- A row of one byte that its pattern matches. -/
theorem of_byte {i : Instr} {b : Byte} {r : Pattern} (he : encode i = [b]) (ht : tablePattern i = some r)
    (hm : i.wellFormed = true → matchesPattern r b = true) : Statement i := by
  intro hw r' hr c hc
  rw [ht] at hr; cases hr
  rw [he, List.mem_singleton] at hc; subst hc
  exact hm hw

/-- A row without a pattern. -/
theorem of_none {i : Instr} (ht : tablePattern i = none) : Statement i := by
  intro _ r hr
  rw [ht] at hr; cases hr

/-- A byte of class `DATA` lies in the range of its rows. -/
theorem data_matches {b : Byte} (h : isData b = true) : matchesPattern ⟨0x00#8, 0x00#8, 1, 255⟩ b = true := by
  revert b; decide

/-- A byte of class `CODE_RUN` lies in the range of its row. -/
theorem runCode_matches {c : Byte} (h : isRunCode c = true) : matchesPattern ⟨0x00#8, 0x00#8, 1, 254⟩ c = true := by
  revert c; decide

theorem delim : Statement .delim := of_byte rfl rfl fun _ => rfl
theorem data (b : Byte) : Statement (.data b) := of_byte rfl rfl data_matches
theorem codeZero : Statement .codeZero := of_byte rfl rfl fun _ => rfl
theorem codeRun (c : Byte) : Statement (.codeRun c) := of_byte rfl rfl runCode_matches
theorem codeFull : Statement .codeFull := of_byte rfl rfl fun _ => rfl
theorem reset : Statement .reset := of_none rfl
theorem enc (x : Bytes) : Statement (.enc x) := of_none rfl
theorem dec (y : Bytes) : Statement (.dec y) := of_none rfl
theorem txp (t : Byte) (p : Bytes) : Statement (.txp t p) := of_none rfl
theorem rxb (b : Byte) : Statement (.rxb b) := of_none rfl
theorem rxbStart : Statement .rxbStart := of_byte rfl rfl fun _ => rfl
theorem rxbSkip (b : Byte) : Statement (.rxbSkip b) := of_byte rfl rfl data_matches
theorem rxbRestart : Statement .rxbRestart := of_byte rfl rfl fun _ => rfl
theorem rxbShort : Statement .rxbShort := of_byte rfl rfl fun _ => rfl
theorem rxbEnd : Statement .rxbEnd := of_byte rfl rfl fun _ => rfl
theorem rxbAppend (b : Byte) : Statement (.rxbAppend b) := of_byte rfl rfl data_matches
theorem rxbOverflow (b : Byte) : Statement (.rxbOverflow b) := of_byte rfl rfl data_matches

end Sys2Proof.Laws.RowPattern
end

