-- ==== Sys2Proof/Laws/Receive.lean ====
section
/-! SUPPORT. What receiving a byte can do, said once: the case by the byte and the state, the equation of each case, the
one inversion lemma, and that every row of the receive agent is `RXB` of its byte. -/

namespace Sys2Proof.Machine

theorem caseOf_idle_delim {s : State} (h : s.rxState = .idle) : caseOf s 0x00#8 = .start := by
  simp [caseOf, rxbCase, h]

theorem caseOf_idle_data {s : State} {b : Byte} (h : s.rxState = .idle) (hb : b ≠ 0x00#8) : caseOf s b = .skip := by
  simp [caseOf, rxbCase, h, hb]

theorem caseOf_delim_zero {s : State} (h : s.rxState = .accumulating) (hl : s.rxLen = 0) :
    caseOf s 0x00#8 = .restart := by
  simp [caseOf, rxbCase, h, hl]

theorem caseOf_delim_one {s : State} (h : s.rxState = .accumulating) (hl : s.rxLen = 1) :
    caseOf s 0x00#8 = .short := by
  simp [caseOf, rxbCase, h, hl]

theorem caseOf_delim_two {s : State} (h : s.rxState = .accumulating) (hl : 2 ≤ s.rxLen) :
    caseOf s 0x00#8 = .packetEnd := by
  simp [caseOf, rxbCase, h, show s.rxLen ≠ 0 by omega, show s.rxLen ≠ 1 by omega]

theorem caseOf_data_lt {s : State} {b : Byte} (h : s.rxState = .accumulating) (hb : b ≠ 0x00#8)
    (hl : s.rxLen < s.params.rxCap) : caseOf s b = .append := by
  simp [caseOf, rxbCase, h, hb, hl]

theorem caseOf_data_full {s : State} {b : Byte} (h : s.rxState = .accumulating) (hb : b ≠ 0x00#8)
    (hl : s.params.rxCap ≤ s.rxLen) : caseOf s b = .overflow := by
  simp [caseOf, rxbCase, h, hb, Nat.not_lt.mpr hl]

/-- R121. -/
theorem receive_start {s : State} (h : s.rxState = .idle) :
    receiveByte 0x00#8 s = .next (s.withParser .accumulating 0) := by
  simp [receiveByte, caseOf_idle_delim h, startEffect]

/-- R122. -/
theorem receive_skip {s : State} {b : Byte} (h : s.rxState = .idle) (hb : b ≠ 0x00#8) :
    receiveByte b s = .next s := by
  simp [receiveByte, caseOf_idle_data h hb, skipEffect]

/-- R123. -/
theorem receive_restart {s : State} (h : s.rxState = .accumulating) (hl : s.rxLen = 0) :
    receiveByte 0x00#8 s = .next (s.withParser .accumulating 0) := by
  simp [receiveByte, caseOf_delim_zero h hl, restartEffect]

/-- R124. -/
theorem receive_short {s : State} (h : s.rxState = .accumulating) (hl : s.rxLen = 1) :
    receiveByte 0x00#8 s =
      .next ((drop .shortPacket s).withParser (if s.params.shortGoesIdle then .idle else .accumulating) 0) := by
  simp [receiveByte, caseOf_delim_one h hl, shortEffect]

/-- R125: a parser that holds `t :: y` closes that packet. -/
theorem receive_end {s : State} {t : Byte} {y : Bytes} (h : s.rxState = .accumulating) (hs : s.holds (t :: y))
    (hy : y ≠ []) (hcap : s.rxLen ≤ s.params.rxCap) :
    receiveByte 0x00#8 s = .next ((closePacket t y s).withParser .idle 0) := by
  have hl : 2 ≤ s.rxLen := by
    rw [hs.1]
    cases y with
    | nil => exact absurd rfl hy
    | cons => simp
  obtain ⟨h0, h1⟩ := read_of_holds hs hcap
  simp [receiveByte, caseOf_delim_two h hl, endEffect, h0, h1]

/-- R126. -/
theorem receive_append {s : State} {b : Byte} (h : s.rxState = .accumulating) (hb : b ≠ 0x00#8)
    (hl : s.rxLen < s.params.rxCap) :
    receiveByte b s = .next ((s.withBuf (setCell s.rxBuf s.rxLen b)).withParser .accumulating (s.rxLen + 1)) := by
  simp [receiveByte, caseOf_data_lt h hb hl, appendEffect, writeCell_of_lt hl, h]

/-- R127. -/
theorem receive_overflow {s : State} {b : Byte} (h : s.rxState = .accumulating) (hb : b ≠ 0x00#8)
    (hl : s.params.rxCap ≤ s.rxLen) :
    receiveByte b s = .next ((drop .overflow s).withParser .idle 0) := by
  simp [receiveByte, caseOf_data_full h hb hl, overflowEffect]

/-- Closing a packet delivers it or drops it, and does nothing else. -/
theorem closePacket_cases (t : Byte) (y : Bytes) (s : State) :
    (∃ r, decBytes y = .fail r ∧ closePacket t y s = drop .decodeFail s) ∨
    (∃ p, decBytes y = .ok p ∧ s.params.accepts t = false ∧ closePacket t y s = drop .unknownType s) ∨
    (∃ p, decBytes y = .ok p ∧ s.params.accepts t = true ∧ closePacket t y s = deliver t p s) := by
  unfold closePacket
  cases h : decBytes y with
  | fail r => exact .inl ⟨r, rfl, rfl⟩
  | ok p =>
    cases ha : s.params.accepts t with
    | false => exact .inr (.inl ⟨p, rfl, rfl, by simp⟩)
    | true => exact .inr (.inr ⟨p, rfl, rfl, by simp⟩)

/-- Everything that receiving a byte can do when it answers a next state. -/
theorem receive_cases {b : Byte} {s t : State} (h : receiveByte b s = .next t) :
    (caseOf s b = .start ∧ t = s.withParser .accumulating 0) ∨
    (caseOf s b = .skip ∧ t = s) ∨
    (caseOf s b = .restart ∧ t = s.withParser .accumulating 0) ∨
    (caseOf s b = .short ∧
      t = (drop .shortPacket s).withParser (if s.params.shortGoesIdle then .idle else .accumulating) 0) ∨
    (caseOf s b = .packetEnd ∧ ∃ ty y, readCell s 0 = .ok ty ∧ readCells s 1 (s.rxLen - 1) = .ok y ∧
      t = (closePacket ty y s).withParser .idle 0) ∨
    (caseOf s b = .append ∧ s.rxLen < s.params.rxCap ∧
      t = (s.withBuf (setCell s.rxBuf s.rxLen b)).withParser s.rxState (s.rxLen + 1)) ∨
    (caseOf s b = .overflow ∧ t = (drop .overflow s).withParser .idle 0) := by
  unfold receiveByte at h
  cases hc : caseOf s b <;> simp only [hc] at h
  case start => exact .inl ⟨rfl, by simpa [startEffect] using h.symm⟩
  case skip => exact .inr (.inl ⟨rfl, by simpa [skipEffect] using h.symm⟩)
  case restart => exact .inr (.inr (.inl ⟨rfl, by simpa [restartEffect] using h.symm⟩))
  case short => exact .inr (.inr (.inr (.inl ⟨rfl, by simpa [shortEffect] using h.symm⟩)))
  case packetEnd =>
    refine .inr (.inr (.inr (.inr (.inl ⟨rfl, ?_⟩))))
    unfold endEffect at h
    split at h
    · cases h
    · rename_i ty h0
      split at h
      · cases h
      · rename_i y h1
        exact ⟨ty, y, h0, h1, by simpa using h.symm⟩
  case append =>
    refine .inr (.inr (.inr (.inr (.inr (.inl ⟨rfl, ?_⟩)))))
    have hl : s.rxLen < s.params.rxCap := by
      by_contra hn
      simp [appendEffect, writeCell, Nat.not_lt.mp hn] at h
    refine ⟨hl, ?_⟩
    simpa [appendEffect, writeCell_of_lt hl] using h.symm
  case overflow =>
    exact .inr (.inr (.inr (.inr (.inr (.inr ⟨rfl, by simpa [overflowEffect] using h.symm⟩)))))

/-- A guarded case row and the dispatch agree, whatever the state selects. -/
theorem execRxbStart_eq (s : State) : execRxbStart s = receiveByte 0x00#8 s := by
  unfold execRxbStart; split
  · rename_i h; simp [receiveByte, h]
  · rfl

theorem execRxbSkip_eq (b : Byte) (s : State) : execRxbSkip b s = receiveByte b s := by
  unfold execRxbSkip; split
  · rename_i h; simp [receiveByte, h]
  · rfl

theorem execRxbRestart_eq (s : State) : execRxbRestart s = receiveByte 0x00#8 s := by
  unfold execRxbRestart; split
  · rename_i h; simp [receiveByte, h]
  · rfl

theorem execRxbShort_eq (s : State) : execRxbShort s = receiveByte 0x00#8 s := by
  unfold execRxbShort; split
  · rename_i h; simp [receiveByte, h]
  · rfl

theorem execRxbEnd_eq (s : State) : execRxbEnd s = receiveByte 0x00#8 s := by
  unfold execRxbEnd; split
  · rename_i h; simp [receiveByte, h]
  · rfl

theorem execRxbAppend_eq (b : Byte) (s : State) : execRxbAppend b s = receiveByte b s := by
  unfold execRxbAppend; split
  · rename_i h; simp [receiveByte, h]
  · rfl

theorem execRxbOverflow_eq (b : Byte) (s : State) : execRxbOverflow b s = receiveByte b s := by
  unfold execRxbOverflow; split
  · rename_i h; simp [receiveByte, h]
  · rfl

end Sys2Proof.Machine
end

