-- ==== Sys2Proof/Laws/Step.lean ====
section
/-! SUPPORT. What a step can do, said once: the operation fetched, and the state it runs in, which differs from the state
before it only in the host's input and the decoder's storage. -/

namespace Sys2Proof.Machine

theorem fetch_of_reset {s : State} (h : resetPresented s = true) :
    fetch s = some (.reset, s.withHost s.host.tail) := by
  simp [fetch, h]

theorem fetch_of_code {s : State} {c : Byte} {rest : Bytes} (h : resetPresented s = false)
    (hd : s.decoder.rest = c :: rest) : fetch s = some (decodeCode c, s.withDecoder ⟨rest, s.decoder.out⟩) := by
  simp [fetch, h, fetchCode, hd]

theorem fetch_of_port {s : State} (h : resetPresented s = false) (hd : s.decoder.rest = []) :
    fetch s = fetchPort s := by
  simp [fetch, h, fetchCode, hd]

/-- The operation runs in a state that differs only in the host's input and the decoder's storage, and the storage only
when a decode is in progress. -/
theorem fetch_frame {s t : State} {i : Instr} (h : fetch s = some (i, t)) :
    t = (s.withHost t.host).withDecoder t.decoder ∧ (s.decoder.rest = [] → t.decoder = s.decoder) := by
  unfold fetch at h
  split at h
  · cases h; exact ⟨rfl, fun _ => rfl⟩
  · unfold fetchCode at h
    split at h
    · rename_i hd
      split at hd
      · cases hd
      · rename_i c rest hr
        cases hd; cases h
        exact ⟨rfl, fun e => by simp [e] at hr⟩
    · unfold fetchPort at h
      split at h
      · cases h
      · split at h
        · cases h
        · cases h; exact ⟨rfl, fun _ => rfl⟩

/-- Everything a step can do: run the fetched operation, or let a moment pass. -/
theorem step_cases (s : State) :
    (∃ i t, fetch s = some (i, t) ∧ step s = exec i t) ∨
    (fetch s = none ∧ step s = .next (s.withHost s.host.tail)) := by
  unfold step
  cases h : fetch s with
  | none => exact .inr ⟨rfl, rfl⟩
  | some r => exact .inl ⟨r.1, r.2, rfl, rfl⟩

/-- A run of the machine behind the host's interface, one step at a time. -/
theorem core_run_succ {k : Nat} {s t : State} (h : step s = .next t) : core.run (k + 1) s = core.run k t := by
  simp only [Host.Core.run]
  rw [show core.step s = .next t from h]

end Sys2Proof.Machine
end

