-- ==== Sys2Proof/Tests/Slice0.lean ====
section
/-! SUPPORT. Tests of the model against the spec's own words and the vectors of 95_test_vectors.md, and for every statement
with hypotheses a named witness (`test_witness_…`) that meets them. Expected values are the spec's, not the model's. -/

namespace Sys2Proof.Tests

open Sys2Proof Sys2Proof.Machine

/-! ### Helpers -/

/-- The convention of 95_test_vectors.md: `RX_CAP = 16`, `TX_MAX_PAYLOAD = 1000`, `RX_ACCEPT` only of `0x05`. -/
def vectorParams : Params := ⟨16, 1000, ⟨0x01#8, 0x02#8, 0x03#8, 0x05#8⟩, [0x05#8], false, false⟩

/-- The vectors' instance with another `RX_CAP` and another `TX_MAX_PAYLOAD`. -/
def smallParams (cap maxPayload : Nat) : Params := { vectorParams with rxCap := cap, txMaxPayload := maxPayload }

/-- (`Idle`, 0). -/
def idle : State := State.boot vectorParams

/-- (`Accumulating`, n) with the `n` bytes `bs` accumulated. -/
def acc (bs : Bytes) (p : Params := vectorParams) : State :=
  { State.boot p with rxState := .accumulating, rxLen := bs.length, rxBuf := bs.zipIdx.map fun c => (c.2, c.1) }

/-- `d(n)` for `n` below 256: the bytes `01, 02, ...`. -/
def d (n : Nat) : Bytes := (List.range n).map fun i => BitVec.ofNat 8 (i + 1)

/-- The next state of an outcome, if it is one. -/
def after : Out → Option State
  | .next t => some t
  | .fault _ => none
  | .refused _ => none

/-- `RX_STATE`, `RX_LEN`, the deliveries and the drops after an outcome. -/
def seen (o : Out) : Option (RxState × Nat × List Delivery × List DropLabel) :=
  (after o).map fun t => (t.rxState, t.rxLen, t.deliveries, t.drops)

/-- The first result returned at a port, and what has been sent, after an outcome. -/
def answered (o : Out) : Option (List Response × Bytes) := (after o).map fun t => (t.responses, t.txOut)

/-- A moment with one request each, and one reset. -/
def busy (r : Bool) : Moment := ⟨r, some 0x41#8, some ⟨0x05#8, []⟩, some [0x11#8], some [0x01#8]⟩

/-- A state in the middle of everything: accumulating, histories not empty, the host presenting a full moment. -/
def mid : State :=
  { acc [0x05#8, 0x02#8, 0x11#8] with
    txOut := [0x00#8, 0x05#8, 0x01#8, 0x00#8], deliveries := [⟨0x05#8, []⟩], drops := [.overflow],
    responses := [.txpAccepted], host := [busy false] }

theorem parserInv_of {s : State}
    (h : s.rxLen ≤ s.params.rxCap ∧ (s.rxState = .idle → s.rxLen = 0) ∧
      ∀ i, i < s.rxLen → cellAt s.rxBuf i ≠ none ∧ cellAt s.rxBuf i ≠ some 0x00#8) : s.parserInv := by
  refine ⟨h.1, h.2.1, fun i hi => ?_⟩
  obtain ⟨hn, hz⟩ := h.2.2 i hi
  obtain ⟨b, hb⟩ := Option.ne_none_iff_exists'.1 hn
  exact ⟨b, hb, fun h0 => hz (h0 ▸ hb)⟩

theorem mid_parserInv : mid.parserInv := parserInv_of (by decide)

theorem mid_txWhole : mid.txWhole := ⟨[⟨0x05#8, []⟩], by decide, by decide⟩

theorem mid_steps : ∃ t, step mid = .next t := ⟨_, rfl⟩

/-! ### Well-formedness: an ill-formed term for each check (R50, R52) -/

theorem test_wf_data : (Instr.data 0x00#8).wellFormed = false ∧ (Instr.data 0x01#8).wellFormed = true := by decide
theorem test_wf_codeRun : (Instr.codeRun 0x00#8).wellFormed = false ∧ (Instr.codeRun 0xFF#8).wellFormed = false ∧
    (Instr.codeRun 0xFE#8).wellFormed = true := by decide
theorem test_wf_rxbSkip : (Instr.rxbSkip 0x00#8).wellFormed = false ∧ (Instr.rxbSkip 0xFF#8).wellFormed = true := by
  decide
theorem test_wf_rxbAppend : (Instr.rxbAppend 0x00#8).wellFormed = false ∧
    (Instr.rxbAppend 0x05#8).wellFormed = true := by decide
theorem test_wf_rxbOverflow : (Instr.rxbOverflow 0x00#8).wellFormed = false ∧
    (Instr.rxbOverflow 0x41#8).wellFormed = true := by decide

/-! ### Decoding: words written out from 30_encoding.md -/

theorem test_decode_delim : decodeTableWord 8 0b00000000 = some .delim := by decide
theorem test_decode_data : decodeTableWord 8 0b00000001 = some (.data 0x01#8) ∧
    decodeTableWord 8 0b11111111 = some (.data 0xFF#8) := by decide
theorem test_decode_code : decode .code [0b00000000#8] = .ok .codeZero ∧
    decode .code [0b00000001#8] = .ok (.codeRun 0x01#8) ∧ decode .code [0b11111110#8] = .ok (.codeRun 0xFE#8) ∧
    decode .code [0b11111111#8] = .ok .codeFull := by decide
/-- The byte form of the port operations is the model's choice, not the spec's (log 17). -/
theorem test_decode_ports : decode (.port .reset) [] = .ok .reset ∧
    decode (.port .enc) [0x11#8, 0x00#8] = .ok (.enc [0x11#8, 0x00#8]) ∧
    decode (.port .dec) [0x02#8, 0x11#8] = .ok (.dec [0x02#8, 0x11#8]) ∧
    decode (.port .txp) [0x05#8] = .ok (.txp 0x05#8 []) ∧
    decode (.port .rxb) [0b01000001#8] = .ok (.rxb 0x41#8) := by decide
theorem test_decode_idle : decode (.parser .idle 0 16) [0b00000000#8] = .ok .rxbStart ∧
    decode (.parser .idle 0 16) [0b01000001#8] = .ok (.rxbSkip 0x41#8) := by decide
theorem test_decode_delim_cases : decode (.parser .accumulating 0 16) [0b00000000#8] = .ok .rxbRestart ∧
    decode (.parser .accumulating 1 16) [0b00000000#8] = .ok .rxbShort ∧
    decode (.parser .accumulating 2 16) [0b00000000#8] = .ok .rxbEnd ∧
    decode (.parser .accumulating 16 16) [0b00000000#8] = .ok .rxbEnd := by decide
theorem test_decode_data_cases : decode (.parser .accumulating 0 16) [0b00000101#8] = .ok (.rxbAppend 0x05#8) ∧
    decode (.parser .accumulating 15 16) [0b00001110#8] = .ok (.rxbAppend 0x0E#8) ∧
    decode (.parser .accumulating 16 16) [0b01000001#8] = .ok (.rxbOverflow 0x41#8) := by decide
theorem test_decode_rejects : decode .stream [] = .error .noByte ∧
    decode .stream [0x00#8, 0x00#8] = .error .extraBytes ∧ decode .code [] = .error .noByte ∧
    decode (.port .reset) [0x00#8] = .error .extraBytes ∧ decode (.port .txp) [] = .error .noByte ∧
    decode (.port .rxb) [] = .error .noByte ∧ decodeTableWord 0 0 = none := by decide

/-! ### Vectors of the receive parser (B1 to B16) -/

theorem test_B1_start : seen (exec .rxbStart idle) = some (.accumulating, 0, [], []) := by decide
theorem test_B1_delim : seen (exec .delim idle) = some (.accumulating, 0, [], []) := by decide
theorem test_B2_skip : seen (exec (.rxbSkip 0x41#8) idle) = some (.idle, 0, [], []) := by decide
theorem test_B3_data : seen (exec (.data 0xFF#8) idle) = some (.idle, 0, [], []) := by decide
theorem test_B4_restart : seen (exec .rxbRestart (acc [])) = some (.accumulating, 0, [], []) := by decide
theorem test_B5_append : after (exec (.rxbAppend 0x05#8) (acc [])) = some (acc [0x05#8]) := by decide
theorem test_B6_short : seen (exec .rxbShort (acc [0x05#8])) = some (.accumulating, 0, [], [.shortPacket]) := by decide
theorem test_B7_rxb : after (exec (.rxb 0x01#8) (acc [0x05#8])) = some (acc [0x05#8, 0x01#8]) := by decide
theorem test_B8_end : seen (exec .rxbEnd (acc [0x05#8, 0x01#8])) = some (.idle, 0, [⟨0x05#8, []⟩], []) := by decide
theorem test_B11_end : seen (exec .rxbEnd (acc [0x07#8, 0x02#8])) = some (.idle, 0, [], [.decodeFail]) := by decide
theorem test_B9_delim : seen (exec .delim (acc [0x07#8, 0x01#8])) = some (.idle, 0, [], [.unknownType]) := by decide
theorem test_B13_rxb : seen (exec (.rxb 0x00#8) (acc (0x05#8 :: 0x0F#8 :: d 14))) =
    some (.idle, 0, [⟨0x05#8, d 14⟩], []) := by decide
theorem test_B14_overflow : seen (exec (.rxbOverflow 0x41#8) (acc (0x05#8 :: 0x0F#8 :: d 14))) =
    some (.idle, 0, [], [.overflow]) := by decide
theorem test_B15_append : after (exec (.rxbAppend 0x0E#8) (acc (0x05#8 :: 0x0F#8 :: d 13))) =
    some (acc (0x05#8 :: 0x0F#8 :: d 14)) := by decide
theorem test_B16_data : after (exec (.data 0x05#8) (acc [0x05#8, 0x02#8, 0x11#8])) =
    some (acc [0x05#8, 0x02#8, 0x11#8, 0x05#8]) := by decide
/-- D10: the fifth byte of P4 under `SHORT_GOES_IDLE`. -/
theorem test_short_goes_idle :
    seen (exec .rxbShort (acc [0x05#8] { vectorParams with shortGoesIdle := true })) =
      some (.idle, 0, [], [.shortPacket]) := by decide

/-! ### Vectors of the ports and of the code bytes -/

/-- P7: the three bytes accumulated are lost, with no drop label. -/
theorem test_reset : seen (exec .reset (acc [0x05#8, 0x03#8, 0x11#8])) = some (.idle, 0, [], []) := by decide
/-- S3. -/
theorem test_S3_enc : answered (exec (.enc [0x11#8, 0x22#8, 0x00#8, 0x33#8]) idle) =
    some ([.encAccepted [0x03#8, 0x11#8, 0x22#8, 0x02#8, 0x33#8]], []) := by decide
/-- E12 and E13: a run of 254 bytes at the end of the input, and before a zero. -/
theorem test_E12_E13_enc : encBytes false (d 254) = 0xFF#8 :: d 254 ∧
    encBytes false (d 254 ++ [0x00#8]) = 0xFF#8 :: (d 254 ++ [0x01#8, 0x01#8]) := by decide +kernel
/-- V5. -/
theorem test_V5_dec : answered (exec (.dec [0x03#8, 0x11#8, 0x22#8, 0x02#8, 0x33#8]) idle) =
    some ([.decResult (.ok [0x11#8, 0x22#8, 0x00#8, 0x33#8])], []) := by decide
/-- V12, V15, V16: the failures, one label each. -/
theorem test_V12_V15_V16_dec : decBytes [0x03#8, 0x11#8, 0x22#8, 0x02#8] = .fail .overrun ∧
    decBytes [0x01#8, 0x00#8] = .fail .zeroCode ∧ decBytes [0x02#8, 0x00#8] = .fail .zeroData := by decide
/-- T3. -/
theorem test_T3_txp : answered (exec (.txp 0x05#8 [0x11#8, 0x22#8, 0x00#8, 0x33#8]) idle) =
    some ([.txpAccepted], [0x00#8, 0x05#8, 0x03#8, 0x11#8, 0x22#8, 0x02#8, 0x33#8, 0x00#8]) := by decide
/-- T9: the type is checked before the length. -/
theorem test_T9_txp : answered (exec (.txp 0x00#8 (List.replicate 1001 0x11#8)) idle) =
    some ([.txpRefused .zeroType], []) := by decide
/-- V14. -/
theorem test_V14_codeZero : answered (exec .codeZero idle) = some ([.decResult (.fail .zeroCode)], []) := by decide
/-- The first block of V5 (R91): two literals and a zero, since input remains. -/
theorem test_V5_codeRun :
    (after (exec (.codeRun 0x03#8) { idle with decoder := ⟨[0x11#8, 0x22#8, 0x02#8, 0x33#8], []⟩ })).map State.decoder =
      some ⟨[0x02#8, 0x33#8], [0x11#8, 0x22#8, 0x00#8]⟩ := by decide
/-- The first block of V21: 254 literals and no zero. -/
theorem test_V21_codeFull :
    (after (exec .codeFull { idle with decoder := ⟨d 254 ++ [0x02#8, 0xFF#8], []⟩ })).map State.decoder =
      some ⟨[0x02#8, 0xFF#8], d 254⟩ := by decide +kernel

/-! ### Steps -/

theorem test_fetch_word_delim : step (State.reset.withFetchWord 8 0x00) = exec .delim State.reset := by rfl
theorem test_fetch_word_data : step (State.reset.withFetchWord 8 0x41) = exec (.data 0x41#8) State.reset := by rfl
theorem test_step_waits : step State.reset = .next State.reset := by rfl

/-! ### Witnesses: reset, fetch and step -/

/-- A reset at the oldest moment. -/
theorem test_witness_StepRunsTheFetchedOperation_reset :
    ({ mid with host := [busy true, busy false] } : State).host = busy true :: [busy false] ∧
      (busy true).reset = true := by decide
/-- A decode in progress, no reset presented. -/
theorem test_witness_StepRunsTheFetchedOperation_code :
    ({ mid with decoder := ⟨[0x01#8], []⟩ } : State).decoder.rest = 0x01#8 :: [] ∧
      ∀ m ms, ({ mid with decoder := ⟨[0x01#8], []⟩ } : State).host = m :: ms → m.reset = false := by
  refine ⟨rfl, fun m ms h => ?_⟩
  cases h; rfl
/-- A byte, a packet, an input of `ENC` and one of `DEC`, each the first thing left of its moment. -/
theorem test_witness_StepRunsTheFetchedOperation_ports :
    mid.host = busy false :: [] ∧ (busy false).reset = false ∧ mid.decoder.rest = [] ∧ (busy false).rx = some 0x41#8 ∧
      ({ busy false with rx := none } : Moment).tx = some ⟨0x05#8, []⟩ ∧
      ({ busy false with rx := none, tx := none } : Moment).enc = some [0x11#8] ∧
      ({ busy false with rx := none, tx := none, enc := none } : Moment).dec = some [0x01#8] := by decide
/-- An empty moment, and no moment at all. -/
theorem test_witness_StepRunsTheFetchedOperation_idle :
    ({ idle with host := [Moment.none] } : State).host = Moment.none :: [] ∧ Moment.none.reset = false ∧
      idle.host = [] ∧ idle.decoder.rest = [] := by decide
theorem test_witness_ResetWinsOverTheWholeMoment :
    ({ mid with host := [busy true] } : State).host = busy true :: [] ∧ (busy true).reset = true ∧
      (after (step { mid with host := [busy true] })).map State.txOut = some mid.txOut := by decide

/-! ### Witnesses: encodings -/

/-- Every row at a place where it stands, the cases of `RXB` at both ends of their ranges. -/
theorem test_witness_DecodeOfEncodeIsTheOperation :
    ∀ q ∈ [(Instr.delim, Place.stream), (.data 0xFF#8, .stream), (.codeZero, .code), (.codeRun 0xFE#8, .code),
      (.codeFull, .code), (.reset, .port .reset), (.enc [], .port .enc), (.dec [], .port .dec),
      (.txp 0x00#8 [], .port .txp), (.rxb 0x00#8, .port .rxb), (.rxbStart, .parser .idle 0 16),
      (.rxbSkip 0x01#8, .parser .idle 0 16), (.rxbRestart, .parser .accumulating 0 16),
      (.rxbShort, .parser .accumulating 1 16), (.rxbEnd, .parser .accumulating 2 16),
      (.rxbEnd, .parser .accumulating 16 16), (.rxbAppend 0x01#8, .parser .accumulating 0 16),
      (.rxbAppend 0xFF#8, .parser .accumulating 15 16), (.rxbOverflow 0x01#8, .parser .accumulating 16 16)],
      q.1.wellFormed = true ∧ stands q.1 q.2 = true := by decide
/-- The second clause: bytes that do decode. -/
theorem test_witness_DecodeOfEncodeIsTheOperation_decoded :
    decode (.port .txp) [0x05#8, 0x11#8] = .ok (.txp 0x05#8 [0x11#8]) ∧ decode .code [0xFF#8] = .ok .codeFull := by
  decide
/-- A byte at each end of each row's range. -/
theorem test_witness_TablePatternsMatchTheDecoder :
    tablePattern .delim = some ⟨0x00#8, 0xFF#8, 0, 0⟩ ∧ tablePattern (.data 0x01#8) = some ⟨0x00#8, 0x00#8, 1, 255⟩ ∧
      tablePattern (.codeRun 0xFE#8) = some ⟨0x00#8, 0x00#8, 1, 254⟩ ∧
      tablePattern .codeFull = some ⟨0xFF#8, 0xFF#8, 255, 255⟩ := by decide

/-! ### Witnesses: the receive parser, case by case -/

theorem test_witness_ReceiveRowsAreRxb : ∀ i ∈ [Instr.delim, .rxbStart, .rxbRestart, .rxbShort, .rxbEnd, .data 0x41#8,
    .rxb 0x41#8, .rxbSkip 0x41#8, .rxbAppend 0x41#8, .rxbOverflow 0x41#8],
    receivedByte i = some 0x00#8 ∨ receivedByte i = some 0x41#8 := by decide
theorem test_witness_StartBeginsAccumulation : idle.rxState = .idle := by decide
theorem test_witness_SkipDiscardsTheByte : idle.rxState = .idle ∧ 0x01#8 ≠ 0x00#8 ∧ 0xFF#8 ≠ 0x00#8 := by decide
theorem test_witness_RestartStartsClean : (acc []).rxState = .accumulating ∧ (acc []).rxLen = 0 := by decide
theorem test_witness_ShortPacketIsDroppedAndRestarts : (acc [0x05#8]).params.shortGoesIdle = false ∧
    (acc [0x05#8]).rxState = .accumulating ∧ (acc [0x05#8]).rxLen = 1 := by decide
theorem test_witness_ShortPacketGoesIdleUnderTheSwitch :
    (acc [0x05#8] { vectorParams with shortGoesIdle := true }).params.shortGoesIdle = true ∧
      (acc [0x05#8] { vectorParams with shortGoesIdle := true }).rxState = .accumulating ∧
      (acc [0x05#8] { vectorParams with shortGoesIdle := true }).rxLen = 1 := by decide
/-- B10: the decode fails, on a zero-free sequence. -/
theorem test_witness_EndMarkerDeliversOrDrops_fail : (acc [0x05#8, 0x02#8]).rxState = .accumulating ∧
    (acc [0x05#8, 0x02#8]).holds [0x05#8, 0x02#8] ∧ (acc [0x05#8, 0x02#8]).rxLen ≤ 16 ∧
    decBytes [0x02#8] = .fail .overrun ∧ 0x00#8 ∉ [0x02#8] := by
  unfold State.holds; decide
/-- B9: the type is not recognised. -/
theorem test_witness_EndMarkerDeliversOrDrops_type : (acc [0x07#8, 0x01#8]).rxState = .accumulating ∧
    (acc [0x07#8, 0x01#8]).holds [0x07#8, 0x01#8] ∧ (acc [0x07#8, 0x01#8]).rxLen ≤ 16 ∧
    decBytes [0x01#8] = .ok [] ∧ (acc [0x07#8, 0x01#8]).params.accepts 0x07#8 = false := by
  unfold State.holds; decide
/-- B13: delivered, with the buffer full. -/
theorem test_witness_EndMarkerDeliversOrDrops_deliver :
    (acc (0x05#8 :: 0x0F#8 :: d 14)).rxState = .accumulating ∧
      (acc (0x05#8 :: 0x0F#8 :: d 14)).holds (0x05#8 :: 0x0F#8 :: d 14) ∧
      (acc (0x05#8 :: 0x0F#8 :: d 14)).rxLen = vectorParams.rxCap ∧
      decBytes (0x0F#8 :: d 14) = .ok (d 14) ∧ vectorParams.accepts 0x05#8 = true := by
  unfold State.holds; decide
/-- The first cell and the last one. -/
theorem test_witness_AppendStoresTheByte : (acc []).rxState = .accumulating ∧ (acc []).rxLen < vectorParams.rxCap ∧
    (acc (d 15)).rxState = .accumulating ∧ (acc (d 15)).rxLen + 1 = vectorParams.rxCap ∧ 0x0E#8 ≠ 0x00#8 := by decide
theorem test_witness_OverflowAbandonsThePacket : (acc (d 16)).rxState = .accumulating ∧ 0x41#8 ≠ 0x00#8 ∧
    (acc (d 16)).rxLen = vectorParams.rxCap := by decide
/-- The invariants hold in an idle state, an empty accumulation and a full buffer. -/
theorem test_witness_EveryByteHasExactlyOneCase : idle.parserInv ∧ (acc []).parserInv ∧ (acc (d 16)).parserInv :=
  ⟨parserInv_of (by decide), parserInv_of (by decide), parserInv_of (by decide)⟩
/-- The first index outside the buffer, and the last one inside. -/
theorem test_witness_UnreadableCellsFault : idle.params.rxCap ≤ 16 ∧ 15 < idle.params.rxCap ∧ idle.rxLen ≤ 15 ∧
    (acc [0x05#8]).rxLen ≤ 1 := by decide

/-! ### Witnesses: the receive parser over byte strings -/

theorem test_witness_TwoDelimitersResynchronize : mid.parserInv := mid_parserInv
/-- The three states in which a packet is received, and a packet that fits exactly (R132). -/
theorem test_witness_PacketOnTheWireIsDelivered : idle.rxState = .idle ∧ (acc []).rxLen = 0 ∧
    ((acc [0x05#8]).rxLen = 1 ∧ (acc [0x05#8]).params.shortGoesIdle = false) ∧
    ∀ s ∈ [idle, acc [], acc [0x05#8]], s.canReceive false ⟨0x05#8, d 14⟩ := by
  unfold State.canReceive; decide
/-- Two packets, one of them at the limit. -/
theorem test_witness_WireRoundTripInOrder : idle.rxState = .idle ∧ idle.rxLen = 0 ∧
    ∀ q ∈ ([⟨0x05#8, []⟩, ⟨0x05#8, d 14⟩] : List Delivery), idle.canReceive false q := by
  unfold State.canReceive; decide
/-- P5: a packet started and not ended before the two. -/
theorem test_witness_GarbageCostsAtMostOnePacket : idle.parserInv ∧ idle.canReceive false ⟨0x05#8, [0x11#8]⟩ ∧
    idle.canReceive false ⟨0x05#8, [0x22#8]⟩ ∧
    seen (feed ([0x00#8, 0x41#8, 0x42#8, 0x43#8] ++ wireAll false [⟨0x05#8, [0x11#8]⟩, ⟨0x05#8, [0x22#8]⟩]) idle) =
      some (.idle, 0, [⟨0x05#8, [0x22#8]⟩], [.decodeFail]) :=
  ⟨parserInv_of (by decide), by unfold State.canReceive; decide, by unfold State.canReceive; decide, by decide⟩
/-- P3. -/
theorem test_witness_OversizedPacketCostsOnlyItself : (State.boot (smallParams 4 1000)).rxState = .idle ∧
    (smallParams 4 1000).rxCap < (encBytes false [0x11#8, 0x00#8, 0x22#8]).length + 1 ∧ 0x05#8 ≠ 0x00#8 ∧
    (State.boot (smallParams 4 1000)).canReceive false ⟨0x05#8, []⟩ := by
  unfold State.canReceive; decide
/-- Log 21: a payload of `RX_CAP - 2` non-zero bytes that does not fit `RX_CAP = 257`: by R74, `255 + 2 + 1` bytes. -/
theorem test_oversized_at_R177_bound : (encBytes false (d 255)).length + 1 = 258 ∧ (d 255).length = 257 - 2 := by
  decide +kernel
/-- P6. -/
theorem test_witness_SharedDelimiterLosesSecondPacket : idle.rxState = .idle ∧
    idle.canReceive false ⟨0x05#8, [0x11#8]⟩ ∧ 0x05#8 ≠ 0x00#8 := by
  unfold State.canReceive; decide
/-- P7. -/
theorem test_witness_JoiningMidStreamLosesNoLaterPacket :
    (∃ u, exec .reset (acc [0x05#8, 0x03#8, 0x11#8]) = .next u) ∧ 0x00#8 ∉ [0x22#8] ∧
      (acc [0x05#8, 0x03#8, 0x11#8]).canReceive false ⟨0x05#8, [0x00#8]⟩ :=
  ⟨⟨_, rfl⟩, by decide, by unfold State.canReceive; decide⟩

/-! ### Witnesses: the encoder, the decoder and the transmit framer -/

/-- The `ENC` port of 95_test_vectors.md: `TX_MAX_PAYLOAD = 4`, four bytes and five. -/
theorem test_witness_EncPortEncodesOrRefuses : (d 4).length ≤ (smallParams 16 4).txMaxPayload ∧
    (smallParams 16 4).txMaxPayload < (d 5).length := by decide
theorem test_witness_EncodingLengthBounds : [0x11#8] ≠ [] ∧ 0x00#8 ∉ [0x11#8] ∧
    (encBytes false [0x11#8]).length = 2 := by decide
/-- The hypothesis is met by equal inputs, and not by S1 and S2, which encode differently. -/
theorem test_witness_EncIsInjective : encBytes false [0x11#8] = encBytes false [0x11#8] ∧
    encBytes false [] ≠ encBytes false [0x00#8] := by decide
/-- The `DEC` port of 95_test_vectors.md: `RX_CAP = 4`, three bytes and four. -/
theorem test_witness_DecPortDecodesOrRefuses : [0x03#8, 0x11#8, 0x22#8].length ≤ (smallParams 4 1000).rxCap - 1 ∧
    (smallParams 4 1000).rxCap - 1 < [0x04#8, 0x11#8, 0x22#8, 0x33#8].length := by decide
/-- An empty block, a block of two and a full block, with a rest that decodes and one that does not. -/
theorem test_witness_DecTakesBlockByBlock : isBlock 0x01#8 [] ∧ isBlock 0x03#8 [0x11#8, 0x22#8] ∧
    isBlock 0xFF#8 (d 254) ∧ decBytes [0x02#8, 0x33#8] = .ok [0x33#8] ∧ decBytes [0x02#8] = .fail .overrun := by
  unfold isBlock; decide +kernel
/-- Whole blocks in front, and for each clause a code byte and a rest at the edge of its condition. -/
theorem test_witness_DecReportsTheFirstDefect : WholeBlocks [0x02#8, 0x11#8] ∧ 0x03#8 ≠ 0x00#8 ∧
    [0x11#8].length < (0x03#8).toNat - 1 ∧
    ((0x03#8).toNat - 1 ≤ [0x11#8, 0x00#8].length ∧ 0x00#8 ∈ [0x11#8, 0x00#8].take ((0x03#8).toNat - 1)) ∧
    [0x11#8, 0x22#8].length = (0x03#8).toNat - 1 ∧ 0x00#8 ∉ [0x11#8, 0x22#8] :=
  ⟨.cons 0x02#8 [0x11#8] [] (by unfold isBlock; decide) .nil, by decide⟩
/-- With `RX_CAP = 2`, the least there is (R132). -/
theorem test_witness_DecOutputIsShorter : decBytes [0x01#8] = .ok [] ∧ [0x01#8].length ≤ 2 - 1 := by decide
theorem test_witness_DecAcceptsExactlyWholeBlocks : (d 254).length = 254 ∧ 0x00#8 ∉ d 254 := by decide +kernel
/-- V19: not canonical, and accepted. -/
theorem test_witness_DecInputIsCanonicalOrClosed : decBytes (0xFF#8 :: (d 254 ++ [0x01#8])) = .ok (d 254) := by
  decide +kernel
/-- Each clause at the smallest run code, and at `0xFE` with 253 literals. -/
theorem test_witness_CodeRunCopiesLiterals : 0x02#8 ≠ 0x00#8 ∧ 0x02#8 ≠ 0xFF#8 ∧
    ([] : Bytes).length < (0x02#8).toNat - 1 ∧ [0x00#8].length = (0x02#8).toNat - 1 ∧ 0x00#8 ∈ [0x00#8] ∧
    ([] : Bytes).length = (0x01#8).toNat - 1 ∧ 0x00#8 ∉ ([] : Bytes) ∧
    (d 253).length = (0xFE#8).toNat - 1 ∧ 0x00#8 ∉ d 253 ∧ [0x01#8] ≠ [] := by decide +kernel
theorem test_witness_CodeFullCopies254Literals : (d 253).length < 254 ∧ (d 254).length = 254 ∧ 0x00#8 ∉ d 254 ∧
    (0x00#8 :: d 253).length = 254 ∧ 0x00#8 ∈ 0x00#8 :: d 253 ∧ [0x01#8] ≠ [] := by decide +kernel
/-- V7, in two steps of the machine. -/
theorem test_witness_CodeByteStepsComputeDec : [0x02#8, 0x11#8, 0x01#8] ≠ [] ∧ idle.host = [] ∧
    answered (core.run 2 { idle with decoder := ⟨[0x02#8, 0x11#8, 0x01#8], []⟩ }) =
      some ([.decResult (.ok [0x11#8, 0x00#8])], []) := by decide
theorem test_witness_TxpSendsWholePacketOrRefuses : 0x05#8 ≠ 0x00#8 ∧ (d 4).length ≤ (smallParams 16 4).txMaxPayload ∧
    (smallParams 16 4).txMaxPayload < (d 5).length := by decide
/-- T1: the first and the last index of the shortest image. -/
theorem test_witness_WireImageDelimitersAndLength : 0x05#8 ≠ 0x00#8 ∧ 0 < (wire false 0x05#8 []).length ∧
    3 + 1 = (wire false 0x05#8 []).length := by decide

/-! ### Witnesses: the whole machine -/

theorem test_witness_GlobalInvariantIsKept : mid.globalInv ∧ ∃ t, step mid = .next t :=
  ⟨⟨mid_parserInv, mid_txWhole⟩, mid_steps⟩
theorem test_witness_DeliveriesFitIsKept : mid.parserInv ∧ mid.deliveriesFit ∧ ∃ t, step mid = .next t :=
  ⟨mid_parserInv, by unfold State.deliveriesFit; decide, mid_steps⟩
theorem test_witness_BufferFormIsKept : Memory.wf mid.rxBuf = true ∧ (∀ c ∈ mid.rxBuf, c.1 < mid.params.rxCap) ∧
    ∃ t, step mid = .next t := ⟨by decide, by decide, mid_steps⟩
theorem test_witness_DecoderStorageStaysEmpty : mid.decoder = DecWork.empty ∧ ∃ t, step mid = .next t :=
  ⟨by decide, mid_steps⟩
theorem test_witness_ParametersNeverChange : ∃ t, step mid = .next t := mid_steps
theorem test_witness_NothingIsFatal : mid.parserInv := mid_parserInv
theorem test_witness_HistoriesOnlyGrow : ∃ t, step mid = .next t := mid_steps
/-- Another byte in the first cell above `RX_LEN`. -/
theorem test_witness_UnreadableCellsDoNotMatter : sameBelowRxLen mid (mid.withBuf (setCell mid.rxBuf 3 0x99#8)) :=
  ⟨rfl, by decide⟩
theorem test_witness_ReceiveAndPortRequestsCommute :
    (∃ u, exec (.rxb 0x41#8) mid = .next u) ∧ (∃ v, exec (.txp 0x05#8 [0x11#8]) mid = .next v) ∧
      (∃ v, exec (.enc [0x11#8]) mid = .next v) ∧ ∃ v, exec (.dec [0x11#8]) mid = .next v :=
  ⟨⟨_, rfl⟩, ⟨_, rfl⟩, ⟨_, rfl⟩, ⟨_, rfl⟩⟩
theorem test_witness_ReceiveFrame : receivedByte (.data 0x41#8) = some 0x41#8 ∧ caseOf mid 0x41#8 = .append ∧
    caseOf mid 0x00#8 = .packetEnd ∧ ∃ t, exec (.data 0x41#8) mid = .next t := ⟨rfl, by decide, by decide, ⟨_, rfl⟩⟩
theorem test_witness_PortAndCodeFrame : ∀ i ∈ [Instr.reset, .enc [0x11#8], .dec [0x01#8], .txp 0x05#8 [], .codeZero,
    .codeRun 0x01#8, .codeFull], receivedByte i = none ∧ (after (exec i mid)).isSome = true := by decide

end Sys2Proof.Tests
end

section
/-! PROOFS. What an operation can do, said once, and the global invariants of R24 under it. -/

namespace Sys2Proof.Machine

/-! ### What an operation can do -/

/-- Every row of the receive agent is `RXB` of its byte (R50, R62, R120). -/
theorem exec_of_receivedByte {i : Instr} {b : Byte} (h : receivedByte i = some b) (s : State) :
    exec i s = receiveByte b s := by
  cases i <;> cases h
  case rxbStart => exact execRxbStart_eq s
  case rxbSkip => exact execRxbSkip_eq b s
  case rxbRestart => exact execRxbRestart_eq s
  case rxbShort => exact execRxbShort_eq s
  case rxbEnd => exact execRxbEnd_eq s
  case rxbAppend => exact execRxbAppend_eq b s
  case rxbOverflow => exact execRxbOverflow_eq b s
  all_goals rfl

/-- The four parts that `TXP` emits one after another are the packet's image (R111). -/
theorem emitTx_parts_eq_wire (t : Byte) (p : Bytes) (s : State) :
    emitTx [0x00#8] (emitTx (s.enc p) (emitTx [t] (emitTx [0x00#8] s))) =
      emitTx (wire s.params.encCloseAfterFull t p) s := by
  simp [emitTx, wire, State.enc]

/-- `TXP` refuses, or sends the whole image of a packet whose type-id is not zero (R111, R112). -/
theorem execTxp_cases {ty : Byte} {p : Bytes} {s t : State} (h : execTxp ty p s = .next t) :
    (∃ r, t = respond (.txpRefused r) s) ∨
    (ty ≠ 0x00#8 ∧ payloadTooLong s p = false ∧
      t = respond .txpAccepted (emitTx (wire s.params.encCloseAfterFull ty p) s)) := by
  simp only [execTxp, emitTx_parts_eq_wire] at h
  split at h
  · cases h; exact .inl ⟨_, rfl⟩
  · split at h
    · cases h; exact .inl ⟨_, rfl⟩
    · rename_i hty hlen
      cases h; exact .inr ⟨hty, by simpa using hlen, rfl⟩

/-- `ENC` only returns a result (R76). -/
theorem execEnc_eq_respond (x : Bytes) (s : State) : ∃ r, execEnc x s = .next (respond r s) := by
  unfold execEnc; split <;> exact ⟨_, rfl⟩

/-- `DEC` only returns a result (R96). -/
theorem execDec_eq_respond (y : Bytes) (s : State) : ∃ r, execDec y s = .next (respond r s) := by
  unfold execDec; split <;> exact ⟨_, rfl⟩

/-- `CODE_RUN`, whatever its byte, is an iteration of the decoder's loop (R52, R91). -/
theorem execCodeRun_eq_finishBlock (c : Byte) (s : State) : ∃ o, execCodeRun c s = finishBlock o s := by
  unfold execCodeRun; split <;> exact ⟨_, rfl⟩

/-- An iteration of the decoder's loop goes on, or returns the result of the decode (R91). -/
theorem finishBlock_cases {o : BlockOutcome} {s t : State} (h : finishBlock o s = .next t) :
    (∃ w, o = .more w ∧ t = s.withDecoder w) ∨
    (∃ r, o = .done r ∧ t = (respond (.decResult r) s).withDecoder DecWork.empty) := by
  cases o with
  | more w => cases h; exact .inl ⟨w, rfl, rfl⟩
  | done r => cases h; exact .inr ⟨r, rfl, rfl⟩

/-- Everything that an operation of another agent than the receive agent can do when it answers a next state: `RESET`, a
packet sent, a result returned, or an iteration of the decoder's loop. -/
theorem exec_nonreceive_cases {i : Instr} {s t : State} (hi : receivedByte i = none) (h : exec i s = .next t) :
    (i = .reset ∧ t = (s.withParser .idle 0).withDecoder DecWork.empty) ∨
    (∃ ty p, i = .txp ty p ∧ ty ≠ 0x00#8 ∧ payloadTooLong s p = false ∧
      t = respond .txpAccepted (emitTx (wire s.params.encCloseAfterFull ty p) s)) ∨
    (((∃ ty p, i = .txp ty p) ∨ (∃ x, i = .enc x) ∨ (∃ y, i = .dec y)) ∧ ∃ r, t = respond r s) ∨
    ((i = .codeZero ∨ (∃ c, i = .codeRun c) ∨ i = .codeFull) ∧ ∃ o, finishBlock o s = .next t) := by
  cases i <;> simp only [receivedByte, reduceCtorEq] at hi
  case reset => cases h; exact .inl ⟨rfl, rfl⟩
  case txp ty p =>
    rcases execTxp_cases h with ⟨r, rfl⟩ | ⟨hty, hlen, rfl⟩
    · exact .inr (.inr (.inl ⟨.inl ⟨ty, p, rfl⟩, _, rfl⟩))
    · exact .inr (.inl ⟨ty, p, rfl, hty, hlen, rfl⟩)
  case enc x =>
    obtain ⟨r, hr⟩ := execEnc_eq_respond x s
    cases hr.symm.trans h
    exact .inr (.inr (.inl ⟨.inr (.inl ⟨x, rfl⟩), r, rfl⟩))
  case dec y =>
    obtain ⟨r, hr⟩ := execDec_eq_respond y s
    cases hr.symm.trans h
    exact .inr (.inr (.inl ⟨.inr (.inr ⟨y, rfl⟩), r, rfl⟩))
  case codeZero => exact .inr (.inr (.inr ⟨.inl rfl, zeroBlock, h⟩))
  case codeFull => exact .inr (.inr (.inr ⟨.inr (.inr rfl), takeBlock fullLiterals false s.decoder, h⟩))
  case codeRun c =>
    obtain ⟨o, ho⟩ := execCodeRun_eq_finishBlock c s
    exact .inr (.inr (.inr ⟨.inr (.inl ⟨c, rfl⟩), o, ho.symm.trans h⟩))

/-! ### What receiving a byte leaves unchanged -/

/-- Closing a packet changes at most the deliveries and the drops (R125). -/
theorem closePacket_frame (ty : Byte) (y : Bytes) (s : State) :
    closePacket ty y s =
      { s with deliveries := (closePacket ty y s).deliveries, drops := (closePacket ty y s).drops } := by
  rcases closePacket_cases ty y s with ⟨r, -, e⟩ | ⟨p, -, -, e⟩ | ⟨p, -, -, e⟩ <;> rw [e] <;> rfl

/-- Receiving a byte sends nothing and leaves the parameters (R37, R120). -/
theorem receive_params_txOut {b : Byte} {s t : State} (h : receiveByte b s = .next t) :
    t.params = s.params ∧ t.txOut = s.txOut := by
  rcases receive_cases h with
    ⟨-, rfl⟩ | ⟨-, rfl⟩ | ⟨-, rfl⟩ | ⟨-, rfl⟩ | ⟨-, ty, y, -, -, rfl⟩ | ⟨-, -, rfl⟩ | ⟨-, rfl⟩
  case inr.inr.inr.inr.inl =>
    rw [closePacket_frame]
    exact ⟨rfl, rfl⟩
  all_goals exact ⟨rfl, rfl⟩

/-- The append case is selected only in `Accumulating`, by a byte that is not zero (R126). -/
theorem caseOf_eq_append {s : State} {b : Byte} (h : caseOf s b = .append) :
    s.rxState = .accumulating ∧ b ≠ 0x00#8 := by
  unfold caseOf at h
  cases hst : s.rxState with
  | idle => rw [hst, rxbCase] at h; split at h <;> cases h
  | accumulating =>
    refine ⟨rfl, ?_⟩
    rintro rfl
    simp only [hst, rxbCase, if_true] at h
    split at h
    · cases h
    · split at h <;> cases h

/-! ### The invariants of R24 -/

/-- An empty parser meets the invariants of the parser, whatever its buffer holds. -/
theorem parserInv_of_rxLen_eq_zero {s : State} (h : s.rxLen = 0) : s.parserInv :=
  ⟨by omega, fun _ => h, fun i hi => by omega⟩

/-- Storing a byte that is not zero at index `RX_LEN`, below the capacity, keeps every accumulated byte non-zero. -/
theorem parserInv_append {s : State} {b : Byte} (hs : s.parserInv) (hst : s.rxState = .accumulating)
    (hb : b ≠ 0x00#8) (hlt : s.rxLen < s.params.rxCap) :
    ((s.withBuf (setCell s.rxBuf s.rxLen b)).withParser s.rxState (s.rxLen + 1)).parserInv := by
  obtain ⟨-, -, hcells⟩ := hs
  refine ⟨hlt, fun hidle => by simp [hst] at hidle, fun i hi => ?_⟩
  rcases Nat.lt_succ_iff_lt_or_eq.mp hi with hi | rfl
  · simpa [cellAt_setCell_of_ne hi.ne] using hcells i hi
  · exact ⟨b, cellAt_setCell_self .., hb⟩

/-- Receiving a byte keeps the invariants of the parser: every case but skip and append leaves it empty. -/
theorem receive_keeps_parserInv {b : Byte} {s t : State} (hs : s.parserInv) (h : receiveByte b s = .next t) :
    t.parserInv := by
  rcases receive_cases h with
    ⟨-, rfl⟩ | ⟨-, rfl⟩ | ⟨-, rfl⟩ | ⟨-, rfl⟩ | ⟨-, ty, y, -, -, rfl⟩ | ⟨hc, hlt, rfl⟩ | ⟨-, rfl⟩
  case inr.inl => exact hs
  case inr.inr.inr.inr.inr.inl =>
    obtain ⟨hst, hb⟩ := caseOf_eq_append hc
    exact parserInv_append hs hst hb hlt
  all_goals exact parserInv_of_rxLen_eq_zero rfl

/-- What has been sent stays whole in a state with the same parameters and the same `TX_OUT`. -/
theorem txWhole_congr {s t : State} (hp : t.params = s.params) (ho : t.txOut = s.txOut) :
    t.txWhole ↔ s.txWhole := by
  simp only [State.txWhole, hp, ho]

/-- Sending the image of one more packet keeps `TX_OUT` a concatenation of whole images. -/
theorem txWhole_emit_wire {s : State} {ty : Byte} (p : Bytes) (hs : s.txWhole) (hty : ty ≠ 0x00#8) :
    (emitTx (wire s.params.encCloseAfterFull ty p) s).txWhole := by
  obtain ⟨packets, htypes, hout⟩ := hs
  refine ⟨packets ++ [⟨ty, p⟩], fun q hq => ?_, by simp [hout]⟩
  rcases List.mem_append.mp hq with hq | hq
  · exact htypes q hq
  · rwa [List.mem_singleton.mp hq]

theorem boot_globalInv (p : Params) : (State.boot p).globalInv :=
  ⟨parserInv_of_rxLen_eq_zero rfl, [], by simp, rfl⟩

/-- The parser's invariants are kept by the receive agent, `TX_OUT` whole by `TXP`; every other operation leaves what they
speak of as it was, or empties the parser. -/
theorem exec_keeps_globalInv {i : Instr} {s t : State} (hs : s.globalInv) (h : exec i s = .next t) :
    t.globalInv := by
  obtain ⟨hparser, hwhole⟩ := hs
  cases hi : receivedByte i with
  | some b =>
    rw [exec_of_receivedByte hi] at h
    obtain ⟨hparams, hout⟩ := receive_params_txOut h
    exact ⟨receive_keeps_parserInv hparser h, (txWhole_congr hparams hout).mpr hwhole⟩
  | none =>
    rcases exec_nonreceive_cases hi h with
      ⟨-, rfl⟩ | ⟨ty, p, -, hty, -, rfl⟩ | ⟨-, r, rfl⟩ | ⟨-, o, ho⟩
    · exact ⟨parserInv_of_rxLen_eq_zero rfl, hwhole⟩
    · exact ⟨hparser, txWhole_emit_wire p hwhole hty⟩
    · exact ⟨hparser, hwhole⟩
    · rcases finishBlock_cases ho with ⟨w, -, rfl⟩ | ⟨r, -, rfl⟩ <;> exact ⟨hparser, hwhole⟩

/-- The host's input and the decoder's storage are not what R24 speaks of. -/
theorem fetch_keeps_globalInv {i : Instr} {s t : State} (hs : s.globalInv) (h : fetch s = some (i, t)) :
    t.globalInv := by
  obtain ⟨ht, -⟩ := fetch_frame h
  rw [ht]
  exact hs

theorem step_keeps_globalInv {s t : State} (hs : s.globalInv) (h : step s = .next t) : t.globalInv := by
  rcases step_cases s with ⟨i, u, hf, hstep⟩ | ⟨-, hstep⟩
  · exact exec_keeps_globalInv (fetch_keeps_globalInv hs hf) (hstep.symm.trans h)
  · cases hstep.symm.trans h
    exact hs

/-- Settles O46: from the state after reset, and over every step by the cases of the operation it runs. -/
theorem globalInvariantIsKept : Obligations.GlobalInvariantIsKept :=
  ⟨boot_globalInv, fun _ _ => step_keeps_globalInv⟩

end Sys2Proof.Machine
end

section
/-! PROOFS. The encoder and the decoder against each other: an encoding is zero-free and decodes to its input. -/

namespace Sys2Proof.Machine

/-! ### An encoding is zero-free -/

/-- With a zero-free block pending, everything that `enc` still writes is zero-free. -/
theorem zero_notMem_encFrom (closing : Bool) {blk : Bytes} (fin : Bool) (x : Bytes) (hl : blk.length ≤ 253)
    (h0 : 0x00#8 ∉ blk) : 0x00#8 ∉ encFrom closing blk fin x := by
  induction x generalizing blk fin with
  | nil =>
    obtain ⟨hcode, -, -⟩ := runCode_spec hl
    rw [encFrom_nil]
    split
    · simp [h0, hcode.symm]
    · simp
  | cons b x ih =>
    by_cases hb : b = 0x00#8
    · subst hb
      obtain ⟨hcode, -, -⟩ := runCode_spec hl
      rw [encFrom_zero]
      simp [h0, hcode.symm, ih]
    · rcases hl.eq_or_lt with h253 | hlt
      · rw [encFrom_full closing fin x hb h253]
        simp [h0, Ne.symm hb, ih]
      · rw [encFrom_data closing fin x hb hlt]
        exact ih true (by simpa using hlt) (by simp [h0, Ne.symm hb])

/-- Settles O29: nothing is pending before the first byte. -/
theorem encodingIsZeroFree : Obligations.EncodingIsZeroFree := fun closing x =>
  zero_notMem_encFrom closing true x (by simp) (by simp)

/-! ### An encoding decodes to its input -/

/-- After a full block `enc` has ended, or goes on as from its start: `fin` matters at the end of the input only. -/
theorem encFrom_false_cases (closing : Bool) (blk x : Bytes) :
    (x = [] ∧ encFrom closing blk false x = []) ∨ encFrom closing blk false x = encFrom closing blk true x := by
  cases x with
  | nil => cases closing <;> simp [encFrom_nil]
  | cons b x => exact .inr rfl

/-- `dec` of one whole block with any bytes behind it. -/
theorem decBytes_block {c : Byte} {lits : Bytes} (rest : Bytes) (hc : c ≠ 0x00#8) (hl : lits.length = literalCount c)
    (h0 : 0x00#8 ∉ lits) :
    decBytes (c :: (lits ++ rest)) =
      if rest = [] then .ok lits else (decBytes rest).after (lits ++ if c ≠ 0xFF#8 then [0x00#8] else []) := by
  rw [decBytes_cons, codeStep_of_ne hc, takeBlock_of_lits hl h0]
  by_cases hr : rest = [] <;> simp [hr]

/-- The last block of a decode gives its literals and no zero. -/
theorem decBytes_last_block {c : Byte} {lits : Bytes} (hc : c ≠ 0x00#8) (hl : lits.length = literalCount c)
    (h0 : 0x00#8 ∉ lits) : decBytes (c :: lits) = .ok lits := by
  simpa using decBytes_block [] hc hl h0

/-- A block in front of bytes that decode, which are never the empty sequence. -/
theorem decBytes_block_of_ok {c : Byte} {lits rest out : Bytes} (hc : c ≠ 0x00#8) (hl : lits.length = literalCount c)
    (h0 : 0x00#8 ∉ lits) (hrest : decBytes rest = .ok out) :
    decBytes (c :: (lits ++ rest)) = .ok (lits ++ (if c ≠ 0xFF#8 then [0x00#8] else []) ++ out) := by
  have hne : rest ≠ [] := by
    rintro rfl
    cases hrest
  rw [decBytes_block rest hc hl h0, if_neg hne, hrest, DecResult.after]

/-- What `enc` still writes with a zero-free block pending decodes to the pending block and the rest of the input. -/
theorem decBytes_encFrom (closing : Bool) {blk : Bytes} (x : Bytes) (hl : blk.length ≤ 253) (h0 : 0x00#8 ∉ blk) :
    decBytes (encFrom closing blk true x) = .ok (blk ++ x) := by
  induction x generalizing blk with
  | nil =>
    obtain ⟨hzero, -, hcount⟩ := runCode_spec hl
    simpa [encFrom_nil] using decBytes_last_block hzero hcount.symm h0
  | cons b x ih =>
    have hnil : decBytes (encFrom closing [] true x) = .ok x := ih (by simp) (by simp)
    by_cases hb : b = 0x00#8
    · subst hb
      obtain ⟨hzero, hnotFull, hcount⟩ := runCode_spec hl
      rw [encFrom_zero, decBytes_block_of_ok hzero hcount.symm h0 hnil]
      simp [hnotFull]
    · have h0b : 0x00#8 ∉ blk ++ [b] := by simp [h0, Ne.symm hb]
      rcases hl.eq_or_lt with h253 | hlt
      · have hcount : (blk ++ [b]).length = literalCount 0xFF#8 := by simp [h253, literalCount]
        rw [encFrom_full closing true x hb h253, List.append_cons]
        rcases encFrom_false_cases closing [] x with ⟨rfl, he⟩ | he <;> rw [he]
        · simpa using decBytes_last_block (by decide) hcount h0b
        · simpa using decBytes_block_of_ok (by decide) hcount h0b hnil
      · rw [encFrom_data closing true x hb hlt, ih (by simpa using hlt) h0b, ← List.append_cons]

/-- Settles O31: nothing is pending before the first byte. -/
theorem decOfEncIsTheInput : Obligations.DecOfEncIsTheInput := fun closing x =>
  decBytes_encFrom closing x (by simp) (by simp)

/-- Settles O32: the decoder is a left inverse of the encoder. -/
theorem encIsInjective : Obligations.EncIsInjective := by
  intro closing x x' h
  have hok : DecResult.ok x = .ok x' := by
    rw [← decOfEncIsTheInput closing x, h, decOfEncIsTheInput closing x']
  exact DecResult.ok.inj hok

end Sys2Proof.Machine
end

section
/-! PROOFS. What the decoder accepts: exactly the non-empty sequences of whole blocks, with an output shorter than the
input. -/

namespace Sys2Proof.Machine

/-! ### What a decode that succeeds has in front -/

/-- One iteration fails, or it has a whole zero-free block in front (R91). -/
theorem takeBlock_fails_or_lits (n : Nat) (z : Bool) (w : DecWork) :
    (∃ r, takeBlock n z w = .done (.fail r)) ∨
      ∃ lits rest, w.rest = lits ++ rest ∧ lits.length = n ∧ 0x00#8 ∉ lits := by
  by_cases hlen : w.rest.length < n
  · exact .inl ⟨.overrun, if_pos hlen⟩
  · by_cases hzero : (w.rest.take n).contains 0x00#8
    · exact .inl ⟨.zeroData, by rw [takeBlock, if_neg hlen, if_pos hzero]⟩
    · exact .inr ⟨w.rest.take n, w.rest.drop n, (List.take_append_drop ..).symm,
        List.length_take_of_le (Nat.le_of_not_lt hlen), by simpa using hzero⟩

/-- Bytes put in front of a result leave a success a success. -/
theorem DecResult.after_eq_ok {o x : Bytes} {r : DecResult} (h : r.after o = .ok x) :
    ∃ x', r = .ok x' ∧ x = o ++ x' := by
  cases r with
  | ok x' => cases h; exact ⟨x', rfl, rfl⟩
  | fail r => cases h

/-- A decode that succeeds has a block in front, which is all there is or has an input that decodes behind it. -/
theorem decBytes_ok_block {y x : Bytes} (h : decBytes y = .ok x) :
    ∃ c lits rest, isBlock c lits ∧ y = c :: (lits ++ rest) ∧ (rest = [] ∨ ∃ x', decBytes rest = .ok x') := by
  cases y with
  | nil => cases h
  | cons c tail =>
    have hc : c ≠ 0x00#8 := by
      rintro rfl
      cases (decBytes_cons 0x00#8 tail).symm.trans h
    rcases takeBlock_fails_or_lits (literalCount c) (decide (c ≠ 0xFF#8)) ⟨tail, []⟩ with
      ⟨r, hr⟩ | ⟨lits, rest, rfl, hl, h0⟩
    · rw [decBytes_cons, codeStep_of_ne hc, hr] at h
      cases h
    · refine ⟨c, lits, rest, ⟨hc, hl, h0⟩, rfl, or_iff_not_imp_left.mpr fun hne => ?_⟩
      rw [decBytes_block rest hc hl h0, if_neg hne] at h
      obtain ⟨x', hx', -⟩ := DecResult.after_eq_ok h
      exact ⟨x', hx'⟩

/-! ### Whole blocks -/

/-- What decodes splits into whole blocks: the block in front, and those of the shorter input behind it. -/
theorem wholeBlocks_of_decBytes_ok {y x : Bytes} (h : decBytes y = .ok x) : WholeBlocks y := by
  obtain ⟨c, lits, rest, hblock, hy, hrest⟩ := decBytes_ok_block h
  have hlt : rest.length < y.length := by simp only [hy, List.length_cons, List.length_append]; omega
  have htail : WholeBlocks rest := by
    rcases hrest with rfl | ⟨x', hx'⟩
    · exact .nil
    · exact wholeBlocks_of_decBytes_ok hx'
  exact hy ▸ .cons c lits rest hblock htail
termination_by y.length

/-- Neither a code byte nor a literal of a whole block is zero (R51). -/
theorem WholeBlocks.zero_notMem {y : Bytes} (h : WholeBlocks y) : 0x00#8 ∉ y := by
  induction h with
  | nil => simp
  | cons c lits rest hblock _ ih =>
    obtain ⟨hc, -, h0⟩ := hblock
    simp [hc.symm, h0, ih]

/-- Whole blocks, at least one, decode. -/
theorem WholeBlocks.decBytes_ok {y : Bytes} (h : WholeBlocks y) (hne : y ≠ []) : ∃ x, decBytes y = .ok x := by
  induction h with
  | nil => exact absurd rfl hne
  | cons c lits rest hblock _ ih =>
    obtain ⟨hc, hl, h0⟩ := hblock
    by_cases hr : rest = []
    · subst hr
      exact ⟨lits, by simpa using decBytes_last_block hc hl h0⟩
    · obtain ⟨out, hout⟩ := ih hr
      exact ⟨_, decBytes_block_of_ok hc hl h0 hout⟩

/-- A block of `n` literals takes `n + 1` bytes and gives at most `n + 1`, the last one `n`. -/
theorem WholeBlocks.decBytes_length_lt {y x : Bytes} (h : WholeBlocks y) (hx : decBytes y = .ok x) :
    x.length < y.length := by
  induction h generalizing x with
  | nil => cases hx
  | cons c lits rest hblock _ ih =>
    obtain ⟨hc, hl, h0⟩ := hblock
    rw [decBytes_block rest hc hl h0] at hx
    by_cases hr : rest = []
    · rw [if_pos hr] at hx
      cases hx
      simp [hr]
    · rw [if_neg hr] at hx
      obtain ⟨out, hout, rfl⟩ := DecResult.after_eq_ok hx
      have hlt : out.length < rest.length := ih hout
      have hzero : (if c ≠ 0xFF#8 then [0x00#8] else []).length ≤ 1 := by split <;> simp
      simp only [List.length_append, List.length_cons]
      omega

/-! ### The obligations -/

/-- Settles O36: what decodes splits into whole blocks, each of which gives no more bytes than it takes. -/
theorem decOutputIsShorter : Obligations.DecOutputIsShorter := by
  intro y x h
  have hlt : x.length < y.length := (wholeBlocks_of_decBytes_ok h).decBytes_length_lt h
  exact ⟨hlt, fun cap hcap => by omega⟩

/-- Settles O37: a decode that succeeds takes one whole block after another; the closing `[0x01]` is a block of no
literals. -/
theorem decAcceptsExactlyWholeBlocks : Obligations.DecAcceptsExactlyWholeBlocks := by
  refine ⟨fun y => ⟨?_, fun ⟨hne, _, hwhole⟩ => hwhole.decBytes_ok hne⟩, fun d hd h0 => ?_⟩
  · rintro ⟨x, hx⟩
    have hwhole : WholeBlocks y := wholeBlocks_of_decBytes_ok hx
    refine ⟨?_, hwhole.zero_notMem, hwhole⟩
    rintro rfl
    cases hx
  · have hfull : (0xFF#8 : Byte) ≠ 0x00#8 := by decide
    have hclosing : decBytes [0x01#8] = .ok [] := by decide
    exact ⟨by simpa using decBytes_block_of_ok hfull hd h0 hclosing, decBytes_last_block hfull hd h0⟩

end Sys2Proof.Machine
end

section
/-! PROOFS. The wire image of a packet: its delimiters and its length, and what the receive agent makes of it when its
bytes are fed one after another. -/

namespace Sys2Proof.Machine

/-! ### The bytes of a wire image -/

/-- An image is the type-id and the encoding between two delimiters (R58). -/
theorem wire_eq_delimited (closing : Bool) (t : Byte) (p : Bytes) :
    wire closing t p = 0x00#8 :: ((t :: encBytes closing p) ++ [0x00#8]) := rfl

theorem wire_length (closing : Bool) (t : Byte) (p : Bytes) :
    (wire closing t p).length = (encBytes closing p).length + 3 := by
  simp [wire]

/-- Between the two delimiters of an image no byte is zero (R115). -/
theorem zero_notMem_wire_body (closing : Bool) {t : Byte} (p : Bytes) (ht : t ≠ 0x00#8) :
    0x00#8 ∉ t :: encBytes closing p := by
  have henc : 0x00#8 ∉ encBytes closing p := encodingIsZeroFree closing p
  simp [ht.symm, henc]

/-- Zero-free bytes between two delimiters: the zeros are at the first and at the last index. -/
theorem getElem?_delimited_eq_zero_iff {body : Bytes} (h0 : 0x00#8 ∉ body) {i : Nat}
    (hi : i < (0x00#8 :: (body ++ [0x00#8])).length) :
    (0x00#8 :: (body ++ [0x00#8]))[i]? = some 0x00#8 ↔
      i = 0 ∨ i + 1 = (0x00#8 :: (body ++ [0x00#8])).length := by
  simp only [List.length_cons, List.length_append, List.length_nil] at hi ⊢
  cases i with
  | zero => simp
  | succ k =>
    rcases Nat.lt_or_ge k body.length with hk | hk
    · have hne : body[k] ≠ 0x00#8 := fun h => h0 (h ▸ List.getElem_mem hk)
      simp [List.getElem?_append_left hk, hk, hne, hk.ne]
    · have hlast : k = body.length := by omega
      subst hlast
      simp

/-! ### The length of an encoding -/

/-- With a block pending, what `enc` still writes is at most as long as the block and the rest of the input together,
and one byte more for every 254 of them that are begun; one byte where there are none (R74). -/
theorem encFrom_length_le {blk : Bytes} (x : Bytes) (hl : blk.length ≤ 253) :
    (encFrom false blk true x).length ≤
      max 1 (blk.length + x.length + (blk.length + x.length + 253) / 254) := by
  induction x generalizing blk with
  | nil =>
    simp only [encFrom_nil, Bool.or_false, if_true, List.length_cons, List.length_nil]
    omega
  | cons b x ih =>
    have hnil := ih (blk := []) (by simp)
    by_cases hb : b = 0x00#8
    · subst hb
      rw [encFrom_zero]
      simp only [List.length_cons, List.length_append, List.length_nil] at hnil ⊢
      omega
    · rcases hl.eq_or_lt with h253 | hlt
      · rw [encFrom_full false true x hb h253]
        cases x with
        | nil => simp [encFrom_nil, h253]
        | cons c x =>
          rw [show encFrom false [] false (c :: x) = encFrom false [] true (c :: x) from rfl]
          simp only [List.length_cons, List.length_append, List.length_nil] at hnil ⊢
          omega
      · have hdata := ih (blk := blk ++ [b]) (by simpa using hlt)
        rw [encFrom_data false true x hb hlt]
        simp only [List.length_cons, List.length_append, List.length_nil] at hdata ⊢
        omega

/-- Settles O44: an image is its encoding and three bytes more, and zero-free between its delimiters. -/
theorem wireImageDelimitersAndLength : Obligations.WireImageDelimitersAndLength := by
  intro t p ht
  have hlower : p.length + 1 ≤ (encBytes false p).length :=
    (decOutputIsShorter _ p (decOfEncIsTheInput false p)).1
  have hupper : (encBytes false p).length ≤ max 1 (p.length + (p.length + 253) / 254) := by
    simpa [encBytes_eq_encFrom] using encFrom_length_le (blk := []) p (by simp)
  refine ⟨wire_length false t p, ?_, ?_, fun i hi => ?_⟩
  · rw [wire_length]; omega
  · rw [wire_length]; omega
  · exact getElem?_delimited_eq_zero_iff (zero_notMem_wire_body false p ht) hi

end Sys2Proof.Machine
end

section
/-! PROOFS. The receive agent fed with bytes one after another: zero-free bytes are accumulated, and a packet's image is
delivered as it was sent. -/

namespace Sys2Proof.Machine

/-! ### Feeding -/

/-- A byte that is received, and the bytes behind it in the state it leaves (R64). -/
theorem feed_cons {b : Byte} {s t : State} (bs : Bytes) (h : receiveByte b s = .next t) :
    feed (b :: bs) s = feed bs t := by
  rw [feed, show exec (.rxb b) s = .next t from h]

theorem feed_append {bs : Bytes} {s t : State} (cs : Bytes) (h : feed bs s = .next t) :
    feed (bs ++ cs) s = feed cs t := by
  induction bs generalizing s with
  | nil => cases h; rfl
  | cons b bs ih =>
    cases hb : exec (.rxb b) s <;> simp only [feed, hb, reduceCtorEq] at h
    rw [List.cons_append, feed_cons _ hb, ih h]

/-! ### Accumulating -/

/-- An empty parser holds the empty sequence. -/
theorem holds_nil {s : State} (h : s.rxLen = 0) : s.holds [] := ⟨h, by simp⟩

/-- A byte stored at index `RX_LEN` is held behind what was held (R126). -/
theorem holds_append {s : State} {bs : Bytes} (b : Byte) (h : s.holds bs) :
    ((s.withBuf (setCell s.rxBuf s.rxLen b)).withParser .accumulating (s.rxLen + 1)).holds (bs ++ [b]) := by
  obtain ⟨hlen, hcells⟩ := h
  refine ⟨by simp [hlen], fun i hi => ?_⟩
  simp only [List.length_append, List.length_singleton] at hi
  simp only [withParser_rxBuf, withBuf_rxBuf, hlen]
  rcases Nat.lt_succ_iff_lt_or_eq.mp hi with hi | rfl
  · rw [cellAt_setCell_of_ne hi.ne, hcells i hi, List.getElem?_append_left hi]
  · simp

/-- Zero-free bytes that fit are all accumulated behind what the parser holds, and nothing else changes (R126). -/
theorem feed_data {s : State} {bs : Bytes} (data : Bytes) (hst : s.rxState = .accumulating) (hs : s.holds bs)
    (h0 : 0x00#8 ∉ data) (hfit : bs.length + data.length ≤ s.params.rxCap) :
    ∃ buf n, feed data s = .next ((s.withBuf buf).withParser .accumulating n) ∧
      ((s.withBuf buf).withParser .accumulating n).holds (bs ++ data) := by
  induction data generalizing s bs with
  | nil => exact ⟨s.rxBuf, s.rxLen, by rw [← hst]; rfl, by rw [← hst, List.append_nil]; exact hs⟩
  | cons b data ih =>
    rw [List.mem_cons, not_or] at h0
    rw [List.length_cons] at hfit
    obtain ⟨hb, hdata⟩ := h0
    have hlt : s.rxLen < s.params.rxCap := by rw [hs.1]; omega
    obtain ⟨buf, n, hfeed, hholds⟩ := ih rfl (holds_append b hs) hdata
      (by simp only [List.length_append, List.length_singleton, withParser_params, withBuf_params]; omega)
    refine ⟨buf, n, (feed_cons data (receive_append hst (Ne.symm hb) hlt)).trans hfeed, ?_⟩
    rw [List.append_cons]
    exact hholds

/-! ### A packet -/

/-- The end marker behind a recognised type-id and an encoding delivers the payload that was encoded (R78, R125). -/
theorem receive_end_of_encoding {s : State} {closing : Bool} {q : Delivery} (hst : s.rxState = .accumulating)
    (hs : s.holds (q.typeId :: encBytes closing q.payload)) (hq : s.canReceive closing q) :
    receiveByte 0x00#8 s = .next ((deliver q.typeId q.payload s).withParser .idle 0) := by
  obtain ⟨-, haccepts, hfit⟩ := hq
  have hdec : decBytes (encBytes closing q.payload) = .ok q.payload := decOfEncIsTheInput closing q.payload
  have hne : encBytes closing q.payload ≠ [] := fun he => by rw [he] at hdec; cases hdec
  have hcap : s.rxLen ≤ s.params.rxCap := by simpa [hs.1] using hfit
  rw [receive_end hst hs hne hcap, closePacket, hdec]
  simp [haccepts]

/-- A packet's bytes behind a start marker: the packet is delivered as it was sent, the parser ends idle and empty, and
nothing else changes but the cells of `RXBUF` (R116). -/
theorem feed_packet_of_started {s : State} {closing : Bool} {q : Delivery} (hst : s.rxState = .accumulating)
    (hlen : s.rxLen = 0) (hq : s.canReceive closing q) :
    ∃ buf, feed ((q.typeId :: encBytes closing q.payload) ++ [0x00#8]) s =
      .next (((deliver q.typeId q.payload s).withBuf buf).withParser .idle 0) := by
  have ⟨htype, _, hfit⟩ := hq
  obtain ⟨buf, n, hfeed, hholds⟩ := feed_data (q.typeId :: encBytes closing q.payload) hst (holds_nil hlen)
    (zero_notMem_wire_body closing q.payload htype) (by simpa using hfit)
  exact ⟨buf, by rw [feed_append _ hfeed, feed_cons [] (receive_end_of_encoding rfl hholds hq)]; rfl⟩

/-- A delimiter starts a packet in a parser that is idle or has accumulated at most one byte, which is dropped; one byte
under the default of `SHORT_GOES_IDLE` (R121, R123, R124). -/
theorem receive_delim_starts {s : State}
    (h : s.rxState = .idle ∨ s.rxLen = 0 ∨ s.rxLen = 1 ∧ s.params.shortGoesIdle = false) :
    ∃ drops, receiveByte 0x00#8 s = .next ({ s with drops := drops }.withParser .accumulating 0) := by
  cases hst : s.rxState with
  | idle => exact ⟨s.drops, receive_start hst⟩
  | accumulating =>
    rcases h with hidle | hzero | ⟨hone, hdefault⟩
    · cases hst.symm.trans hidle
    · exact ⟨s.drops, receive_restart hst hzero⟩
    · exact ⟨s.drops ++ [.shortPacket], by rw [receive_short hst hone, hdefault]; rfl⟩

/-- Settles O21: the first delimiter starts a packet, and the bytes behind it are that packet's. -/
theorem packetOnTheWireIsDelivered : Obligations.PacketOnTheWireIsDelivered := by
  intro s closing q hs hq
  obtain ⟨drops, hstart⟩ := receive_delim_starts hs
  obtain ⟨buf, hpacket⟩ :=
    feed_packet_of_started (s := { s with drops := drops }.withParser .accumulating 0) rfl rfl hq
  rw [wire_eq_delimited, feed_cons _ hstart, hpacket]
  exact ⟨_, rfl, rfl, rfl, rfl, rfl, rfl, rfl⟩

end Sys2Proof.Machine
end

section
/-! PROOFS. The receive parser's start, restart and append under each name of their rows, and packets fed back to back. -/

namespace Sys2Proof.Machine

/-! ### A byte at a time -/

/-- Settles O10: in `Idle` the byte `0x00` selects the start case under every name of the row. -/
theorem startBeginsAccumulation : Obligations.StartBeginsAccumulation := by
  intro s hidle
  have hstart : receiveByte 0x00#8 s = .next (s.withParser .accumulating 0) := receive_start hidle
  exact ⟨(exec_of_receivedByte rfl s).trans hstart, hstart, hstart⟩

/-- A delimiter leaves a parser that is accumulating and empty as it is (R123). -/
theorem receive_delim_of_empty {s : State} (hst : s.rxState = .accumulating) (hlen : s.rxLen = 0) :
    receiveByte 0x00#8 s = .next s := by
  have hself : s.withParser .accumulating 0 = s := by rw [← hst, ← hlen]; rfl
  rw [receive_restart hst hlen, hself]

/-- A byte that leaves the state as it is does so any number of times. -/
theorem feed_replicate {b : Byte} {s : State} (n : Nat) (h : receiveByte b s = .next s) :
    feed (List.replicate n b) s = .next s := by
  induction n with
  | zero => rfl
  | succ n ih => rw [List.replicate_succ, feed_cons _ h, ih]

/-- Settles O12: a delimiter changes nothing in an empty accumulating parser, so any number of them changes nothing. -/
theorem restartStartsClean : Obligations.RestartStartsClean := by
  intro s hst hlen
  have hdelim : receiveByte 0x00#8 s = .next s := receive_delim_of_empty hst hlen
  exact ⟨(exec_of_receivedByte rfl s).trans hdelim, hdelim, hdelim, fun n => feed_replicate n hdelim⟩

/-- Settles O16: the append case under each name of its row, and the buffer's read after a write. -/
theorem appendStoresTheByte : Obligations.AppendStoresTheByte := by
  intro s b hst hb hlt
  refine ⟨fun i hi => ?_, cellAt_setCell_self .., fun j hj => cellAt_setCell_of_ne hj⟩
  have hbyte : receivedByte i = some b := by
    simp only [List.mem_cons, List.not_mem_nil, or_false] at hi
    rcases hi with rfl | rfl | rfl <;> rfl
  rw [exec_of_receivedByte hbyte, receive_append hst hb hlt, ← hst]
  rfl

/-! ### Packets back to back -/

/-- A packet's image fed to an idle parser: the packet is delivered as it was sent, the parser is idle and empty again,
and nothing else changes but the cells of `RXBUF` (R116). -/
theorem feed_wire_of_idle {s : State} {closing : Bool} {q : Delivery} (hidle : s.rxState = .idle)
    (hq : s.canReceive closing q) :
    ∃ buf, feed (wire closing q.typeId q.payload) s =
      .next (((deliver q.typeId q.payload s).withBuf buf).withParser .idle 0) := by
  obtain ⟨buf, hpacket⟩ := feed_packet_of_started (s := s.withParser .accumulating 0) rfl rfl hq
  exact ⟨buf, by rw [wire_eq_delimited, feed_cons _ (receive_start hidle), hpacket]; rfl⟩

theorem wireAll_cons (closing : Bool) (q : Delivery) (packets : List Delivery) :
    wireAll closing (q :: packets) = wire closing q.typeId q.payload ++ wireAll closing packets := rfl

/-- Settles O22, by induction over the packets: each one leaves the parser idle and empty for the next. -/
theorem wireRoundTripInOrder : Obligations.WireRoundTripInOrder := by
  intro s closing packets hidle hlen hall
  induction packets generalizing s with
  | nil => exact ⟨s, rfl, by simp, rfl, hidle, hlen⟩
  | cons q packets ih =>
    rw [List.forall_mem_cons] at hall
    obtain ⟨hq, hrest⟩ := hall
    obtain ⟨buf, hfirst⟩ := feed_wire_of_idle hidle hq
    obtain ⟨t, hfeed, hdeliveries, hdrops, hparser⟩ :=
      ih (((deliver q.typeId q.payload s).withBuf buf).withParser .idle 0) rfl rfl hrest
    refine ⟨t, ?_, ?_, hdrops, hparser⟩
    · rw [wireAll_cons, feed_append _ hfirst, hfeed]
    · simpa using hdeliveries

end Sys2Proof.Machine
end

section
/-! PROOFS. Decoding and encoding: the operation of each place, and the table's patterns. -/

namespace Sys2Proof

/-! ### The row that a byte selects -/

theorem decodeStream_of_ne {b : Byte} (h : b ≠ 0x00#8) : decodeStream b = .data b := if_neg h

theorem decodeCode_zero : decodeCode 0x00#8 = .codeZero := rfl

theorem decodeCode_full : decodeCode 0xFF#8 = .codeFull := rfl

theorem decodeCode_run {c : Byte} (h0 : c ≠ 0x00#8) (hf : c ≠ 0xFF#8) : decodeCode c = .codeRun c := by
  simp [decodeCode, codeClass, h0, hf]

theorem isData_iff {b : Byte} : isData b = true ↔ b ≠ 0x00#8 := bne_iff_ne

theorem isRunCode_iff {c : Byte} : isRunCode c = true ↔ c ≠ 0x00#8 ∧ c ≠ 0xFF#8 := by simp [isRunCode]

/-- The case that the parser selects is one for a delimiter or one for a data byte, as the byte is (R62). -/
theorem rxbCase_of_byte (st : RxState) (len cap : Nat) (b : Byte) :
    (b = 0x00#8 ∧ rxbCase st len cap b ∈ [.start, .restart, .short, .packetEnd]) ∨
    (b ≠ 0x00#8 ∧ rxbCase st len cap b ∈ [.skip, .append, .overflow]) := by
  by_cases hb : b = 0x00#8
  · refine .inl ⟨hb, ?_⟩
    cases st with
    | idle => simp [rxbCase, hb]
    | accumulating =>
      simp only [rxbCase, hb, if_true]
      split
      · simp
      · split <;> simp
  · refine .inr ⟨hb, ?_⟩
    cases st with
    | idle => simp [rxbCase, hb]
    | accumulating =>
      simp only [rxbCase, hb, if_false]
      split <;> simp

/-! ### Decoding what was encoded, place by place -/

theorem decode_encode_stream {i : Instr} (hw : i.wellFormed = true) (hs : stands i .stream = true) :
    decode .stream (encode i) = .ok i := by
  cases i <;> simp only [stands, Bool.false_eq_true] at hs
  case delim => rfl
  case data b => exact congrArg Except.ok (decodeStream_of_ne (isData_iff.mp hw))

theorem decode_encode_code {i : Instr} (hw : i.wellFormed = true) (hs : stands i .code = true) :
    decode .code (encode i) = .ok i := by
  cases i <;> simp only [stands, Bool.false_eq_true] at hs
  case codeZero => rfl
  case codeFull => rfl
  case codeRun c =>
    obtain ⟨h0, hf⟩ := isRunCode_iff.mp hw
    exact congrArg Except.ok (decodeCode_run h0 hf)

theorem decode_encode_port {i : Instr} {p : Port} (hs : stands i (.port p) = true) :
    decode (.port p) (encode i) = .ok i := by
  cases i <;> cases p <;> simp only [stands, Bool.false_eq_true] at hs <;> rfl

/-- Each row of the cases of `RXB` stands only where its case is selected (R62). -/
theorem decode_encode_parser {i : Instr} {st : RxState} {len cap : Nat} (hw : i.wellFormed = true)
    (hs : stands i (.parser st len cap) = true) : decode (.parser st len cap) (encode i) = .ok i := by
  cases i <;> cases st <;> simp only [stands, Bool.false_eq_true, beq_iff_eq, decide_eq_true_eq] at hs
  case rxbStart => rfl
  case rxbSkip b => simp [encode, decode, rxbCase, isData_iff.mp hw, decodeCase]
  case rxbRestart => simp [encode, decode, rxbCase, hs, decodeCase]
  case rxbShort => simp [encode, decode, rxbCase, hs, decodeCase]
  case rxbEnd =>
    simp [encode, decode, rxbCase, show len ≠ 0 by omega, show len ≠ 1 by omega, decodeCase]
  case rxbAppend b => simp [encode, decode, rxbCase, isData_iff.mp hw, hs, decodeCase]
  case rxbOverflow b => simp [encode, decode, rxbCase, isData_iff.mp hw, hs, decodeCase]

/-! ### What decoding gives -/

/-- The operation is well-formed and its bytes are `bs`. -/
def Instr.reads (i : Instr) (bs : Bytes) : Prop := i.wellFormed = true ∧ encode i = bs

theorem decodeStream_reads (b : Byte) : (decodeStream b).reads [b] := by
  by_cases h : b = 0x00#8
  · subst h; exact ⟨rfl, rfl⟩
  · rw [decodeStream_of_ne h]; exact ⟨isData_iff.mpr h, rfl⟩

theorem decodeCode_reads (c : Byte) : (decodeCode c).reads [c] := by
  by_cases h0 : c = 0x00#8
  · subst h0; exact ⟨rfl, rfl⟩
  · by_cases hf : c = 0xFF#8
    · subst hf; exact ⟨rfl, rfl⟩
    · rw [decodeCode_run h0 hf]; exact ⟨isRunCode_iff.mpr ⟨h0, hf⟩, rfl⟩

theorem decodeCase_reads (st : RxState) (len cap : Nat) (b : Byte) :
    (decodeCase (rxbCase st len cap b) b).reads [b] := by
  rcases rxbCase_of_byte st len cap b with ⟨rfl, hk⟩ | ⟨hb, hk⟩
  · simp only [List.mem_cons, List.not_mem_nil, or_false] at hk
    rcases hk with hk | hk | hk | hk <;> rw [hk] <;> exact ⟨rfl, rfl⟩
  · simp only [List.mem_cons, List.not_mem_nil, or_false] at hk
    rcases hk with hk | hk | hk <;> rw [hk] <;> exact ⟨isData_iff.mpr hb, rfl⟩

theorem decodePort_reads {p : Port} {bs : Bytes} {i : Instr} (h : decodePort p bs = .ok i) : i.reads bs := by
  unfold decodePort at h
  split at h <;> cases h <;> exact ⟨rfl, rfl⟩

theorem decode_reads {at_ : Place} {bs : Bytes} {i : Instr} (h : decode at_ bs = .ok i) : i.reads bs := by
  unfold decode at h
  split at h
  · exact decodePort_reads h
  · cases h
  · cases h
  · cases h; exact decodeStream_reads _
  · cases h; exact decodeCode_reads _
  · cases h; exact decodeCase_reads _ _ _ _

/-- Settles O6, place by place; what decodes is well-formed because the byte selects a row of its own class. -/
theorem decodeOfEncodeIsTheOperation : Obligations.DecodeOfEncodeIsTheOperation := by
  refine ⟨fun i at_ hw hs => ?_, fun at_ bs i => decode_reads⟩
  cases at_ with
  | stream => exact decode_encode_stream hw hs
  | code => exact decode_encode_code hw hs
  | port p => exact decode_encode_port hs
  | parser st len cap => exact decode_encode_parser hw hs

/-! ### The table's patterns -/

theorem decodeStream_eq_delim_iff {b : Byte} : decodeStream b = .delim ↔ b = 0x00#8 := by
  simp [decodeStream]

theorem decodeStream_eq_data_iff {b : Byte} : decodeStream b = .data b ↔ b ≠ 0x00#8 := by
  simp [decodeStream]

theorem decodeCode_eq_codeZero_iff {c : Byte} : decodeCode c = .codeZero ↔ c = 0x00#8 := by
  unfold decodeCode codeClass
  by_cases h0 : c = 0x00#8 <;> by_cases hf : c = 0xFF#8 <;> simp [h0, hf]

theorem decodeCode_eq_codeRun_iff {c : Byte} : decodeCode c = .codeRun c ↔ isRunCode c = true := by
  rw [isRunCode_iff]
  unfold decodeCode codeClass
  by_cases h0 : c = 0x00#8 <;> by_cases hf : c = 0xFF#8 <;> simp [h0, hf]

theorem decodeCode_eq_codeFull_iff {c : Byte} : decodeCode c = .codeFull ↔ c = 0xFF#8 := by
  unfold decodeCode codeClass
  by_cases h0 : c = 0x00#8
  · simp [h0]
  · by_cases hf : c = 0xFF#8 <;> simp [h0, hf]

/-- The four patterns of the table, as conditions on the byte (R63). -/
theorem matchesPattern_iff (b : Byte) :
    (matchesPattern ⟨0x00#8, 0xFF#8, 0, 0⟩ b = true ↔ b = 0x00#8) ∧
    (matchesPattern ⟨0x00#8, 0x00#8, 1, 255⟩ b = true ↔ b ≠ 0x00#8) ∧
    (matchesPattern ⟨0x00#8, 0x00#8, 1, 254⟩ b = true ↔ isRunCode b = true) ∧
    (matchesPattern ⟨0xFF#8, 0xFF#8, 255, 255⟩ b = true ↔ b = 0xFF#8) := by
  revert b; decide

/-- Settles O7: each row's pattern and its decoding are the same condition on the byte. -/
theorem tablePatternsMatchTheDecoder : Obligations.TablePatternsMatchTheDecoder := by
  intro b
  obtain ⟨hzero, hdata, hrun, hfull⟩ := matchesPattern_iff b
  have hstream (i : Instr) : decode .stream [b] = .ok i ↔ decodeStream b = i := by simp [decode]
  have hcode (i : Instr) : decode .code [b] = .ok i ↔ decodeCode b = i := by simp [decode]
  simp only [List.forall_mem_cons, List.not_mem_nil, false_imp_iff, implies_true, and_true, tablePattern,
    Option.some.injEq, forall_eq', hstream, hcode]
  exact ⟨⟨hzero.trans decodeStream_eq_delim_iff.symm, hdata.trans decodeStream_eq_data_iff.symm⟩,
    hzero.trans decodeCode_eq_codeZero_iff.symm, hrun.trans decodeCode_eq_codeRun_iff.symm,
    hfull.trans decodeCode_eq_codeFull_iff.symm⟩

/-- Settles O8: each word is closed, and the decoder is run on it. -/
theorem sampleWordsDecodeAsTheSpecSays : Obligations.SampleWordsDecodeAsTheSpecSays :=
  ⟨rfl, rfl, rfl, rfl, rfl, rfl, rfl⟩

end Sys2Proof
end

section
/-! PROOFS. One step: which operation it runs, and what the parser, the ports and the code bytes leave unchanged. -/

namespace Sys2Proof.Machine

/-! ### Which operation a step runs -/

theorem step_of_fetch {s u : State} {i : Instr} (h : fetch s = some (i, u)) : step s = exec i u := by
  rw [step, h]

theorem step_of_fetch_none {s : State} (h : fetch s = none) : step s = .next (s.withHost s.host.tail) := by
  rw [step, h]

theorem resetPresented_eq_false_iff {s : State} :
    resetPresented s = false ↔ ∀ m ms, s.host = m :: ms → m.reset = false := by
  unfold resetPresented
  cases s.host <;> simp

theorem resetPresented_of_cons {s : State} {m : Moment} {ms : List Moment} (h : s.host = m :: ms) :
    resetPresented s = m.reset := by rw [resetPresented, h]

theorem resetPresented_of_nil {s : State} (h : s.host = []) : resetPresented s = false := by rw [resetPresented, h]

theorem fetchPort_cons {s : State} {m : Moment} {ms : List Moment} (h : s.host = m :: ms) :
    fetchPort s = (takeOp m).map fun r => (r.1, s.withHost (pushMoment r.2 ms)) := by
  simp only [fetchPort, h]
  cases takeOp m <;> rfl

/-- With no reset and no decode in progress, the operation taken from the oldest moment is run. -/
theorem step_of_takeOp {s : State} {m m' : Moment} {ms : List Moment} {i : Instr} (hhost : s.host = m :: ms)
    (hreset : m.reset = false) (hdec : s.decoder.rest = []) (htake : takeOp m = some (i, m')) :
    step s = exec i (s.withHost (pushMoment m' ms)) := by
  have hr : resetPresented s = false := (resetPresented_of_cons hhost).trans hreset
  refine step_of_fetch ?_
  rw [fetch_of_port hr hdec, fetchPort_cons hhost, htake]
  rfl

/-- With no reset, no decode in progress and no operation at the oldest moment, the moment passes. -/
theorem step_of_nothing {s : State} (hreset : resetPresented s = false) (hdec : s.decoder.rest = [])
    (htake : ∀ m ms, s.host = m :: ms → takeOp m = none) : step s = .next (s.withHost s.host.tail) := by
  refine step_of_fetch_none ?_
  rw [fetch_of_port hreset hdec]
  cases h : s.host with
  | nil => rw [fetchPort, h]
  | cons m ms => rw [fetchPort_cons h, htake m ms h]; rfl

/-- Settles O3: the cases of `fetch`, and of `takeOp` within a moment. -/
theorem stepRunsTheFetchedOperation : Obligations.StepRunsTheFetchedOperation := by
  intro s
  refine ⟨fun m ms hhost hreset => ?_, fun c rest hreset hdec => ?_, fun m ms hhost hreset hdec => ?_,
    fun hhost hdec => ?_⟩
  · have hr : resetPresented s = true := (resetPresented_of_cons hhost).trans hreset
    rw [step_of_fetch (fetch_of_reset hr), hhost]
    rfl
  · rw [step_of_fetch (fetch_of_code (resetPresented_eq_false_iff.mpr hreset) hdec)]
    rfl
  · refine ⟨fun b hrx => ?_, fun q hrx htx => ?_, fun x hrx htx henc => ?_, fun y hrx htx henc hdc => ?_, ?_⟩
    · exact step_of_takeOp hhost hreset hdec (by simp [takeOp, hrx])
    · exact step_of_takeOp hhost hreset hdec (by simp [takeOp, hrx, htx])
    · exact step_of_takeOp hhost hreset hdec (by simp [takeOp, hrx, htx, henc])
    · exact step_of_takeOp hhost hreset hdec (by simp [takeOp, hrx, htx, henc, hdc])
    · rintro rfl
      have hr : resetPresented s = false := resetPresented_of_cons hhost
      rw [step_of_nothing hr hdec fun m' ms' h => by cases hhost.symm.trans h; rfl, hhost]
      rfl
  · have hr : resetPresented s = false := resetPresented_of_nil hhost
    rw [step_of_nothing hr hdec fun m ms h => (by cases hhost.symm.trans h), hhost, List.tail_nil, ← hhost]
    rfl

/-- Settles O4: a presented reset is all that is fetched. -/
theorem resetWinsOverTheWholeMoment : Obligations.ResetWinsOverTheWholeMoment :=
  fun s m ms hhost hreset => (stepRunsTheFetchedOperation s).1 m ms hhost hreset

/-! ### The frame of the receive agent -/

/-- What receiving a byte leaves unchanged (R37, R120). -/
theorem receive_frame {b : Byte} {s t : State} (h : receiveByte b s = .next t) :
    t.params = s.params ∧ t.txOut = s.txOut ∧ t.responses = s.responses ∧ t.host = s.host ∧
    t.decoder = s.decoder ∧ (caseOf s b ≠ .append → t.rxBuf = s.rxBuf) ∧
    (∀ j, j ≠ s.rxLen → cellAt t.rxBuf j = cellAt s.rxBuf j) ∧
    (caseOf s b ≠ .packetEnd → t.deliveries = s.deliveries) := by
  rcases receive_cases h with
    ⟨-, rfl⟩ | ⟨-, rfl⟩ | ⟨-, rfl⟩ | ⟨-, rfl⟩ | ⟨hc, ty, y, -, -, rfl⟩ | ⟨hc, -, rfl⟩ | ⟨-, rfl⟩
  case inr.inr.inr.inr.inl =>
    rw [closePacket_frame]
    exact ⟨rfl, rfl, rfl, rfl, rfl, fun _ => rfl, fun _ _ => rfl, fun hne => absurd hc hne⟩
  case inr.inr.inr.inr.inr.inl =>
    exact ⟨rfl, rfl, rfl, rfl, rfl, fun hne => absurd hc hne, fun _ hj => cellAt_setCell_of_ne hj, fun _ => rfl⟩
  all_goals exact ⟨rfl, rfl, rfl, rfl, rfl, fun _ => rfl, fun _ _ => rfl, fun _ => rfl⟩

/-- Settles O9: each row of the receive agent dispatches on its byte. -/
theorem receiveRowsAreRxb : Obligations.ReceiveRowsAreRxb :=
  fun _ _ s hi => exec_of_receivedByte hi s

/-- Settles O56: the frame of `RXB`, whose rows these are. -/
theorem receiveFrame : Obligations.ReceiveFrame := by
  intro i b s t hi h
  rw [exec_of_receivedByte hi] at h
  exact receive_frame h

/-! ### The frame of the other operations -/

/-- A request at the port `TXP`, `ENC` or `DEC`. -/
def isRequest (i : Instr) : Prop := (∃ ty p, i = .txp ty p) ∨ (∃ x, i = .enc x) ∨ (∃ y, i = .dec y)

/-- A code-byte row. -/
def isCodeRow (i : Instr) : Prop := i = .codeZero ∨ (∃ c, i = .codeRun c) ∨ i = .codeFull

theorem receivedByte_eq_none_cases {i : Instr} (h : receivedByte i = none) :
    i = .reset ∨ isRequest i ∨ isCodeRow i := by
  cases i <;> simp [receivedByte, isRequest, isCodeRow] at h ⊢

theorem isRequest.ne_reset {i : Instr} (h : isRequest i) : i ≠ .reset := by
  rcases h with ⟨_, _, rfl⟩ | ⟨_, rfl⟩ | ⟨_, rfl⟩ <;> exact Instr.noConfusion

theorem isCodeRow.ne_reset {i : Instr} (h : isCodeRow i) : i ≠ .reset := by
  rcases h with rfl | ⟨_, rfl⟩ | rfl <;> exact Instr.noConfusion

theorem isCodeRow.not_isRequest {i : Instr} (h : isCodeRow i) : ¬ isRequest i := by
  rcases h with rfl | ⟨_, rfl⟩ | rfl <;> simp [isRequest]

/-- Settles O57: by what each of these operations can do. -/
theorem portAndCodeFrame : Obligations.PortAndCodeFrame := by
  intro i s t hi h
  rcases exec_nonreceive_cases hi h with
    ⟨rfl, rfl⟩ | ⟨ty, p, rfl, -, -, rfl⟩ | ⟨hreq, r, rfl⟩ | ⟨hcode, o, ho⟩
  · exact ⟨rfl, fun _ => rfl, rfl, rfl, rfl, rfl, fun hne => absurd rfl hne, fun _ => rfl, fun _ => rfl,
      fun hreq => absurd rfl (isRequest.ne_reset hreq)⟩
  · exact ⟨rfl, fun _ => rfl, rfl, rfl, rfl, rfl, fun _ => ⟨rfl, rfl⟩, fun hne => absurd rfl (hne ty p),
      Instr.noConfusion, fun _ => rfl⟩
  · exact ⟨rfl, fun _ => rfl, rfl, rfl, rfl, rfl, fun _ => ⟨rfl, rfl⟩, fun _ => rfl,
      fun he => absurd he (isRequest.ne_reset hreq), fun _ => rfl⟩
  · rcases finishBlock_cases ho with ⟨w, -, rfl⟩ | ⟨r, -, rfl⟩ <;>
    exact ⟨rfl, fun _ => rfl, rfl, rfl, rfl, rfl, fun _ => ⟨rfl, rfl⟩, fun _ => rfl,
      fun he => absurd he (isCodeRow.ne_reset hcode), fun hreq => absurd hreq (isCodeRow.not_isRequest hcode)⟩

theorem exec_params {i : Instr} {s t : State} (h : exec i s = .next t) : t.params = s.params := by
  cases hi : receivedByte i with
  | some b => exact (receiveFrame i b s t hi h).1
  | none => exact (portAndCodeFrame i s t hi h).1

/-! ### What every operation keeps, every step keeps -/

/-- What holds whatever the host presents and the decoder stores, and is kept by every operation, is kept by a step. -/
theorem step_keeps {P : State → Prop} {s t : State} (hs : ∀ h w, P ((s.withHost h).withDecoder w))
    (hexec : ∀ i u, P u → exec i u = .next t → P t) (h : step s = .next t) : P t := by
  rcases step_cases s with ⟨i, u, hf, hstep⟩ | ⟨-, hstep⟩
  · refine hexec i u ?_ (hstep.symm.trans h)
    rw [(fetch_frame hf).1]
    exact hs _ _
  · cases hstep.symm.trans h
    exact hs s.host.tail s.decoder

/-- Settles O50: no operation writes the parameters, and fetching does not. -/
theorem parametersNeverChange : Obligations.ParametersNeverChange := fun s _ h =>
  step_keeps (P := fun u => u.params = s.params) (fun _ _ => rfl) (fun _ _ hu hx => (exec_params hx).trans hu) h

/-- Every history of `t` begins with that of `s`. -/
def historiesGrow (s t : State) : Prop :=
  s.txOut <+: t.txOut ∧ s.deliveries <+: t.deliveries ∧ s.drops <+: t.drops ∧ s.responses <+: t.responses

theorem historiesGrow.trans {s t u : State} (h : historiesGrow s t) (h' : historiesGrow t u) : historiesGrow s u := by
  obtain ⟨h1, h2, h3, h4⟩ := h
  obtain ⟨h1', h2', h3', h4'⟩ := h'
  exact ⟨h1.trans h1', h2.trans h2', h3.trans h3', h4.trans h4'⟩

theorem closePacket_histories_grow (ty : Byte) (y : Bytes) (s : State) : historiesGrow s (closePacket ty y s) := by
  rcases closePacket_cases ty y s with ⟨r, -, e⟩ | ⟨p, -, -, e⟩ | ⟨p, -, -, e⟩ <;> rw [e] <;> simp [historiesGrow]

theorem receive_histories_grow {b : Byte} {s t : State} (h : receiveByte b s = .next t) : historiesGrow s t := by
  rcases receive_cases h with
    ⟨-, rfl⟩ | ⟨-, rfl⟩ | ⟨-, rfl⟩ | ⟨-, rfl⟩ | ⟨-, ty, y, -, -, rfl⟩ | ⟨-, -, rfl⟩ | ⟨-, rfl⟩
  case inr.inr.inr.inr.inl => exact closePacket_histories_grow ty y s
  all_goals simp [historiesGrow]

theorem exec_histories_grow {i : Instr} {s t : State} (h : exec i s = .next t) : historiesGrow s t := by
  cases hi : receivedByte i with
  | some b =>
    rw [exec_of_receivedByte hi] at h
    exact receive_histories_grow h
  | none =>
    rcases exec_nonreceive_cases hi h with
      ⟨-, rfl⟩ | ⟨ty, p, -, -, -, rfl⟩ | ⟨-, r, rfl⟩ | ⟨-, o, ho⟩
    · simp [historiesGrow]
    · simp [historiesGrow]
    · simp [historiesGrow]
    · rcases finishBlock_cases ho with ⟨w, -, rfl⟩ | ⟨r, -, rfl⟩ <;> simp [historiesGrow]

/-- Settles O52: every operation appends to a history or leaves it. -/
theorem historiesOnlyGrow : Obligations.HistoriesOnlyGrow := fun s _ h =>
  step_keeps (P := historiesGrow s) (fun _ _ => by simp [historiesGrow]) (fun _ _ hu hx =>
    hu.trans (exec_histories_grow hx)) h

/-! ### The decoder's storage -/

/-- From the ports a received byte or a request is taken, never a code-byte row. -/
theorem takeOp_cases {m m' : Moment} {i : Instr} (h : takeOp m = some (i, m')) :
    (∃ b, receivedByte i = some b) ∨ isRequest i := by
  unfold takeOp at h
  split at h <;> cases h
  · rename_i b _
    exact .inl ⟨b, by by_cases hb : b = 0x00#8 <;> simp [decodeStream, hb, receivedByte]⟩
  · exact .inr (.inl ⟨_, _, rfl⟩)
  · exact .inr (.inr (.inl ⟨_, rfl⟩))
  · exact .inr (.inr (.inr ⟨_, rfl⟩))

/-- With no decode in progress, a step runs `RESET`, a received byte or a request. -/
theorem fetch_cases_of_no_decode {s u : State} {i : Instr} (hd : s.decoder.rest = []) (h : fetch s = some (i, u)) :
    i = .reset ∨ (∃ b, receivedByte i = some b) ∨ isRequest i := by
  cases hr : resetPresented s with
  | true => cases (fetch_of_reset hr).symm.trans h; exact .inl rfl
  | false =>
    rw [fetch_of_port hr hd] at h
    cases hh : s.host with
    | nil => rw [fetchPort, hh] at h; cases h
    | cons m ms =>
      rw [fetchPort_cons hh, Option.map_eq_some_iff] at h
      obtain ⟨⟨j, m'⟩, htake, heq⟩ := h
      cases heq
      exact .inr (takeOp_cases htake)

/-- Settles O49: only a code-byte row fills the decoder's storage, and none is fetched while it is empty. -/
theorem decoderStorageStaysEmpty : Obligations.DecoderStorageStaysEmpty := by
  intro s t hs h
  have hrest : s.decoder.rest = [] := by rw [hs]; rfl
  rcases step_cases s with ⟨i, u, hf, hstep⟩ | ⟨-, hstep⟩
  · have hu : u.decoder = DecWork.empty := ((fetch_frame hf).2 hrest).trans hs
    have hx : exec i u = .next t := hstep.symm.trans h
    rcases fetch_cases_of_no_decode hrest hf with rfl | ⟨b, hi⟩ | hreq
    · cases hx; rfl
    · obtain ⟨-, -, -, -, hdec, -⟩ := receiveFrame i b u t hi hx
      exact hdec.trans hu
    · have hi : receivedByte i = none := by rcases hreq with ⟨_, _, rfl⟩ | ⟨_, rfl⟩ | ⟨_, rfl⟩ <;> rfl
      obtain ⟨-, -, -, -, -, -, -, -, -, hdec⟩ := portAndCodeFrame i u t hi hx
      exact (hdec hreq).trans hu
  · cases hstep.symm.trans h
    exact hs

/-! ### The cells of `RXBUF` -/

/-- The list of cells is in its canonical form and inside the buffer (R13, log 5). -/
def bufferForm (s : State) : Prop := Memory.wf s.rxBuf = true ∧ ∀ c ∈ s.rxBuf, c.1 < s.params.rxCap

theorem receive_keeps_bufferForm {b : Byte} {s t : State} (hs : bufferForm s) (h : receiveByte b s = .next t) :
    bufferForm t := by
  rcases receive_cases h with
    ⟨-, rfl⟩ | ⟨-, rfl⟩ | ⟨-, rfl⟩ | ⟨-, rfl⟩ | ⟨-, ty, y, -, -, rfl⟩ | ⟨-, hlt, rfl⟩ | ⟨-, rfl⟩
  case inr.inr.inr.inr.inl => rw [closePacket_frame]; exact hs
  case inr.inr.inr.inr.inr.inl => exact ⟨setCell_wf _ b hs.1, setCell_below hlt hs.2⟩
  all_goals exact hs

theorem exec_keeps_bufferForm {i : Instr} {s t : State} (hs : bufferForm s) (h : exec i s = .next t) :
    bufferForm t := by
  cases hi : receivedByte i with
  | some b =>
    rw [exec_of_receivedByte hi] at h
    exact receive_keeps_bufferForm hs h
  | none =>
    obtain ⟨hparams, -, hbuf, -⟩ := portAndCodeFrame i s t hi h
    rw [bufferForm, hbuf, hparams]
    exact hs

/-- Settles O48: only the append case writes a cell, one below `RX_CAP`. -/
theorem bufferFormIsKept : Obligations.BufferFormIsKept := fun s _ hwf hbelow h =>
  step_keeps (P := bufferForm) (s := s) (fun _ _ => ⟨hwf, hbelow⟩) (fun _ _ => exec_keeps_bufferForm) h

end Sys2Proof.Machine
end

section
/-! PROOFS. Reset, the ports and the code-byte rows: what each one answers. -/

namespace Sys2Proof.Machine

/-! ### Reset -/

/-- No cell of an empty parser's buffer can be read (R13). -/
theorem readCell_ne_ok_of_empty {s : State} (h : s.rxLen = 0) (i : Nat) (b : Byte) : readCell s i ≠ .ok b := by
  rw [Ne, readCell_ok_iff]
  omega

/-- Settles O1: an empty parser has no readable cell. -/
theorem resetLeavesIdleEmptyParser : Obligations.ResetLeavesIdleEmptyParser := fun _ =>
  ⟨rfl, rfl, rfl, rfl, rfl, rfl, readCell_ne_ok_of_empty rfl⟩

/-- Settles O2: the type-ids are shifted up by one from four places of a permutation. -/
theorem resetParametersMeetConstraints : Obligations.ResetParametersMeetConstraints := by
  refine ⟨rfl, ⟨Nat.le_add_left 2 _, ?_, ?_⟩, rfl, rfl⟩
  · simp [State.reset, State.boot, Config.params, (typeId_ne_zero _).symm]
  · have hne {j k : Fin 255} (h : j ≠ k) : Config.typeId j ≠ Config.typeId k := fun e => h (typeId_injective j k e)
    simp [State.reset, State.boot, Config.params, hne]

/-- Settles O5: the parser is emptied and nothing else but the decoder's storage is written. -/
theorem resetOperationEffect : Obligations.ResetOperationEffect := fun _ =>
  ⟨_, rfl, rfl, rfl, rfl, rfl, rfl, rfl, readCell_ne_ok_of_empty rfl⟩

/-- Settles O19: the two guards of the buffer read. -/
theorem unreadableCellsFault : Obligations.UnreadableCellsFault := fun _ _ =>
  ⟨fun h => if_pos h, fun hcap hlen => by rw [readCell, if_neg (Nat.not_le.mpr hcap), if_pos hlen]⟩

/-- Settles O45: nothing has been accumulated, sent or delivered. -/
theorem globalInvariantAtReset : Obligations.GlobalInvariantAtReset := fun p =>
  ⟨boot_globalInv p, fun _ hd => by cases hd⟩

/-! ### The ports -/

theorem payloadTooLong_iff {s : State} {p : Bytes} :
    payloadTooLong s p = true ↔ s.params.txMaxPayload < p.length := decide_eq_true_iff

theorem encodedTooLong_iff {s : State} {y : Bytes} :
    encodedTooLong s y = true ↔ s.params.rxCap - 1 < y.length := decide_eq_true_iff

/-- Settles O27: the two branches of the length check. -/
theorem encPortEncodesOrRefuses : Obligations.EncPortEncodesOrRefuses := by
  intro s x
  refine ⟨fun h => ?_, fun h => ?_⟩
  · exact if_neg fun hlong => absurd (payloadTooLong_iff.mp hlong) (Nat.not_lt.mpr h)
  · exact if_pos (payloadTooLong_iff.mpr h)

/-- Settles O33: the two branches of the length check. -/
theorem decPortDecodesOrRefuses : Obligations.DecPortDecodesOrRefuses := by
  intro s y
  refine ⟨fun h => ?_, fun h => ?_⟩
  · exact if_neg fun hlong => absurd (encodedTooLong_iff.mp hlong) (Nat.not_lt.mpr h)
  · exact if_pos (encodedTooLong_iff.mpr h)

/-- Settles O43: the type is checked first, then the length; the parts sent make up the packet's image. -/
theorem txpSendsWholePacketOrRefuses : Obligations.TxpSendsWholePacketOrRefuses := by
  intro s t p
  refine ⟨fun ht h => ?_, fun ht => if_pos ht, fun ht h => ?_⟩
  · have hlong : ¬ payloadTooLong s p = true := fun hl => absurd (payloadTooLong_iff.mp hl) (Nat.not_lt.mpr h)
    have hexec : exec (.txp t p) s =
        .next (respond .txpAccepted (emitTx (wire s.params.encCloseAfterFull t p) s)) := by
      rw [← emitTx_parts_eq_wire]
      exact (if_neg ht).trans (if_neg hlong)
    exact hexec
  · exact (if_neg ht).trans (if_pos (payloadTooLong_iff.mpr h))

/-! ### The code bytes -/

/-- A code byte's row is one iteration of the decoder's loop at that byte (R52, R91). -/
theorem exec_decodeCode (c : Byte) (s : State) : exec (decodeCode c) s = finishBlock (codeStep c s.decoder) s := by
  by_cases h0 : c = 0x00#8
  · subst h0; rfl
  · by_cases hf : c = 0xFF#8
    · subst hf; rfl
    · rw [decodeCode_run h0 hf, codeStep_of_ne h0, decide_eq_true hf]
      exact if_pos (isRunCode_iff.mpr ⟨h0, hf⟩)

theorem exec_codeRun {c : Byte} (h0 : c ≠ 0x00#8) (hf : c ≠ 0xFF#8) (s : State) :
    exec (.codeRun c) s = finishBlock (takeBlock (c.toNat - 1) true s.decoder) s :=
  if_pos (isRunCode_iff.mpr ⟨h0, hf⟩)

theorem takeBlock_overrun {n : Nat} (z : Bool) {w : DecWork} (h : w.rest.length < n) :
    takeBlock n z w = .done (.fail .overrun) := if_pos h

theorem takeBlock_zeroData {n : Nat} (z : Bool) {w : DecWork} (h : n ≤ w.rest.length) (h0 : 0x00#8 ∈ w.rest.take n) :
    takeBlock n z w = .done (.fail .zeroData) := by
  rw [takeBlock, if_neg (Nat.not_lt.mpr h), if_pos (List.contains_iff_mem.mpr h0)]

/-- All outcomes of one iteration with the bytes that remain given as literals and a rest (R91, R93, R95). -/
theorem finishBlock_takeBlock (n : Nat) (z : Bool) (s : State) :
    (s.decoder.rest.length < n → finishBlock (takeBlock n z s.decoder) s =
      .next ((respond (.decResult (.fail .overrun)) s).withDecoder DecWork.empty)) ∧
    (∀ lits rest, s.decoder.rest = lits ++ rest → lits.length = n →
      (0x00#8 ∈ lits → finishBlock (takeBlock n z s.decoder) s =
        .next ((respond (.decResult (.fail .zeroData)) s).withDecoder DecWork.empty)) ∧
      (0x00#8 ∉ lits → rest = [] → finishBlock (takeBlock n z s.decoder) s =
        .next ((respond (.decResult (.ok (s.decoder.out ++ lits))) s).withDecoder DecWork.empty)) ∧
      (0x00#8 ∉ lits → rest ≠ [] → finishBlock (takeBlock n z s.decoder) s =
        .next (s.withDecoder ⟨rest, s.decoder.out ++ lits ++ if z then [0x00#8] else []⟩))) := by
  refine ⟨fun h => by rw [takeBlock_overrun z h]; rfl, fun lits rest hr hl => ?_⟩
  have hw : s.decoder = ⟨lits ++ rest, s.decoder.out⟩ := by rw [← hr]
  refine ⟨fun h0 => ?_, fun h0 he => ?_, fun h0 hne => ?_⟩
  · rw [takeBlock_zeroData z (by simp [hr, hl]) (by simpa [hr, ← hl] using h0)]
    rfl
  · rw [hw, takeBlock_of_lits hl h0, if_pos he]
    rfl
  · rw [hw, takeBlock_of_lits hl h0, if_neg hne]
    rfl

/-- Settles O39: the iteration at `0x00` fails whatever is stored. -/
theorem codeZeroFails : Obligations.CodeZeroFails := fun _ => rfl

/-- Settles O40: the outcomes of one iteration of `L - 1` literals that implies a zero. -/
theorem codeRunCopiesLiterals : Obligations.CodeRunCopiesLiterals := by
  intro s c h0 hf
  rw [exec_codeRun h0 hf]
  exact finishBlock_takeBlock (c.toNat - 1) true s

/-- Settles O41: the outcomes of one iteration of 254 literals that implies no zero. -/
theorem codeFullCopies254Literals : Obligations.CodeFullCopies254Literals := by
  intro s
  have h := finishBlock_takeBlock 254 false s
  simp only [Bool.false_eq_true, if_false, List.append_nil] at h
  exact h

/-- A step with nothing presented by the host runs the next code byte of the decode in progress. -/
theorem step_of_code {s : State} {c : Byte} {rest : Bytes} (hhost : s.host = []) (hrest : s.decoder.rest = c :: rest) :
    step s = finishBlock (codeStep c ⟨rest, s.decoder.out⟩) (s.withDecoder ⟨rest, s.decoder.out⟩) := by
  have hr : resetPresented s = false := resetPresented_of_nil hhost
  rw [step_of_fetch (fetch_of_code hr hrest), exec_decodeCode]
  rfl

theorem DecResult.after_after (o o' : Bytes) (r : DecResult) : (r.after o').after o = r.after (o ++ o') := by
  cases r <;> simp [DecResult.after]

theorem DecResult.after_nil (r : DecResult) : r.after [] = r := by cases r <;> rfl

/-- With an output so far in front, at most `|y|` steps return what `dec` makes of `y`, by induction on the length of `y`:
an iteration that goes on leaves a shorter input. -/
theorem core_run_decode {s : State} (hhost : s.host = []) {y : Bytes} (out : Bytes) (hy : y ≠ []) :
    ∃ k, k ≤ y.length ∧ core.run k (s.withDecoder ⟨y, out⟩) =
      .next ((respond (.decResult ((decBytes y).after out)) s).withDecoder DecWork.empty) := by
  obtain ⟨c, rest, rfl⟩ := List.exists_cons_of_ne_nil hy
  have hstep : step (s.withDecoder ⟨c :: rest, out⟩) =
      finishBlock (codeStep c ⟨rest, out⟩) (s.withDecoder ⟨rest, out⟩) := step_of_code hhost rfl
  rw [codeStep_out] at hstep
  rw [decBytes_cons]
  cases hcode : codeStep c ⟨rest, []⟩ with
  | done r =>
    rw [hcode] at hstep
    exact ⟨1, by simp, core_run_succ hstep⟩
  | more w =>
    rw [hcode] at hstep
    obtain ⟨hne, hle⟩ := codeStep_more hcode
    have hlt : w.rest.length < (c :: rest).length := Nat.lt_succ_of_le hle
    obtain ⟨k, hk, hrun⟩ := core_run_decode hhost (out ++ w.out) hne
    refine ⟨k + 1, Nat.succ_le_of_lt (Nat.lt_of_le_of_lt hk hlt), (core_run_succ hstep).trans (hrun.trans ?_)⟩
    simp only [DecResult.after_after]
termination_by y.length

/-- Settles O42: with no output so far, the result is that of `dec`. -/
theorem codeByteStepsComputeDec : Obligations.CodeByteStepsComputeDec := by
  intro s y hy hhost
  have h := core_run_decode hhost [] hy
  rw [DecResult.after_nil] at h
  exact h

end Sys2Proof.Machine
end

section
/-! PROOFS. The receive parser case by case: skip, short, overflow and the end marker, and that a step always answers. -/

namespace Sys2Proof.Machine

/-! ### Skip, short and overflow -/

/-- Settles O11: in `Idle` a byte other than `0x00` selects the skip case under every name of the row. -/
theorem skipDiscardsTheByte : Obligations.SkipDiscardsTheByte := by
  intro s b hidle hb
  have hskip : receiveByte b s = .next s := receive_skip hidle hb
  exact ⟨(exec_of_receivedByte rfl s).trans hskip, hskip, hskip⟩

/-- Settles O13: the short case with the switch at its default. -/
theorem shortPacketIsDroppedAndRestarts : Obligations.ShortPacketIsDroppedAndRestarts := by
  intro s hswitch hst hlen
  have hshort := receive_short hst hlen
  rw [hswitch] at hshort
  exact ⟨(exec_of_receivedByte rfl s).trans hshort, hshort, hshort⟩

/-- Settles O14: the short case with the switch set. -/
theorem shortPacketGoesIdleUnderTheSwitch : Obligations.ShortPacketGoesIdleUnderTheSwitch := by
  intro s hswitch hst hlen
  have hshort := receive_short hst hlen
  rw [hswitch] at hshort
  exact ⟨(exec_of_receivedByte rfl s).trans hshort, hshort⟩

/-- Settles O17: a full buffer selects the overflow case under every name of the row. -/
theorem overflowAbandonsThePacket : Obligations.OverflowAbandonsThePacket := by
  intro s b hst hb hfull i hi
  have hbyte : receivedByte i = some b := by
    simp only [List.mem_cons, List.not_mem_nil, or_false] at hi
    rcases hi with rfl | rfl | rfl <;> rfl
  rw [exec_of_receivedByte hbyte]
  exact receive_overflow hst hb hfull.ge

/-! ### The end marker -/

/-- On a non-empty zero-free sequence a decode can fail only for want of literals: there is no zero to be a code byte or a
literal (R125). -/
theorem decBytes_fail_of_zero_notMem {y : Bytes} {r : DecFail} (hne : y ≠ []) (h0 : 0x00#8 ∉ y)
    (h : decBytes y = .fail r) : r = .overrun := by
  obtain ⟨c, tail, rfl⟩ := List.exists_cons_of_ne_nil hne
  rw [List.mem_cons, not_or] at h0
  obtain ⟨hc, htail⟩ := h0
  rcases Nat.lt_or_ge tail.length (literalCount c) with hlen | hlen
  · rw [decBytes_cons, codeStep_of_ne (Ne.symm hc), takeBlock_overrun _ hlen] at h
    cases h
    rfl
  · have hlits : 0x00#8 ∉ tail.take (literalCount c) := fun hm => htail (List.mem_of_mem_take hm)
    have hrest : 0x00#8 ∉ tail.drop (literalCount c) := fun hm => htail (List.mem_of_mem_drop hm)
    rw [← List.take_append_drop (literalCount c) tail,
      decBytes_block _ (Ne.symm hc) (List.length_take_of_le hlen) hlits] at h
    split at h
    · cases h
    · rename_i hne'
      have hlt : (tail.drop (literalCount c)).length < (c :: tail).length := by simp
      cases hdec : decBytes (tail.drop (literalCount c)) with
      | ok x => rw [hdec] at h; cases h
      | fail r' =>
        rw [hdec] at h
        cases h
        exact decBytes_fail_of_zero_notMem hne' hrest hdec
termination_by y.length

/-- Settles O15: the three ways in which a packet is closed. -/
theorem endMarkerDeliversOrDrops : Obligations.EndMarkerDeliversOrDrops := by
  intro s t y hst hs hy hcap
  have hlen : y.length ≤ s.params.rxCap - 1 := by
    have hl : s.rxLen = y.length + 1 := hs.1
    omega
  refine ⟨fun i hi => ?_, fun p hp => (decOutputIsShorter y p hp).2 _ hlen,
    fun h0 r hr => decBytes_fail_of_zero_notMem hy h0 hr⟩
  have hbyte : receivedByte i = some 0x00#8 := by
    simp only [List.mem_cons, List.not_mem_nil, or_false] at hi
    rcases hi with rfl | rfl | rfl <;> rfl
  rw [exec_of_receivedByte hbyte, receive_end hst hs hy hcap]
  refine ⟨fun r hr => ?_, fun p hp hacc => ?_, fun p hp hacc => ?_⟩
  · rw [closePacket, hr]; rfl
  · simp only [closePacket, hp, hacc]; rfl
  · simp only [closePacket, hp, hacc]; rfl

/-- What the end marker hands over has a non-zero recognised type-id and a payload that fits (R14, R125). -/
theorem closePacket_keeps_deliveriesFit {s : State} {ty : Byte} {y : Bytes} (hs : s.deliveriesFit) (hty : ty ≠ 0x00#8)
    (hy : y.length + 1 ≤ s.params.rxCap) : (closePacket ty y s).deliveriesFit := by
  rcases closePacket_cases ty y s with ⟨r, -, e⟩ | ⟨p, -, -, e⟩ | ⟨p, hp, hacc, e⟩ <;> rw [e]
  · exact hs
  · exact hs
  · have hshort : p.length + 1 ≤ y.length := (decOutputIsShorter y p hp).1
    intro d hd
    rw [deliver_deliveries, List.mem_append, List.mem_singleton] at hd
    rcases hd with hd | rfl
    · exact hs d hd
    · refine ⟨hty, hacc, ?_⟩
      simp only [deliver_params]
      omega

theorem receive_keeps_deliveriesFit {b : Byte} {s t : State} (hinv : s.parserInv) (hs : s.deliveriesFit)
    (h : receiveByte b s = .next t) : t.deliveriesFit := by
  rcases receive_cases h with
    ⟨-, rfl⟩ | ⟨-, rfl⟩ | ⟨-, rfl⟩ | ⟨-, rfl⟩ | ⟨-, ty, y, h0, h1, rfl⟩ | ⟨-, -, rfl⟩ | ⟨-, rfl⟩
  case inr.inr.inr.inr.inl =>
    obtain ⟨hcap, -, hcells⟩ := hinv
    obtain ⟨-, hpos, hread⟩ := readCell_ok_iff.mp h0
    obtain ⟨c, hc, hne⟩ := hcells 0 hpos
    cases hread.symm.trans hc
    have hlen : y.length = s.rxLen - 1 := (readCells_ok h1).1
    exact closePacket_keeps_deliveriesFit hs hne (by omega)
  all_goals exact hs

theorem exec_keeps_deliveriesFit {i : Instr} {s t : State} (hinv : s.parserInv) (hs : s.deliveriesFit)
    (h : exec i s = .next t) : t.deliveriesFit := by
  cases hi : receivedByte i with
  | some b =>
    rw [exec_of_receivedByte hi] at h
    exact receive_keeps_deliveriesFit hinv hs h
  | none =>
    obtain ⟨hparams, -, -, hdeliveries, -⟩ := portAndCodeFrame i s t hi h
    rw [State.deliveriesFit, hparams, hdeliveries]
    exact hs

/-- Settles O47: only the end marker delivers, and the parser's invariants bound what it delivers. -/
theorem deliveriesFitIsKept : Obligations.DeliveriesFitIsKept := by
  intro s t hinv hs h
  rcases step_cases s with ⟨i, u, hf, hstep⟩ | ⟨-, hstep⟩
  · have hu : u.parserInv ∧ u.deliveriesFit := by rw [(fetch_frame hf).1]; exact ⟨hinv, hs⟩
    exact exec_keeps_deliveriesFit hu.1 hu.2 (hstep.symm.trans h)
  · cases hstep.symm.trans h
    exact hs

/-! ### A step always answers -/

/-- In every state of the parser's invariants a received byte answers a next state, case by case (R128, R152). -/
theorem receive_answers {s : State} (hs : s.parserInv) (b : Byte) : ∃ t, receiveByte b s = .next t := by
  by_cases hb : b = 0x00#8
  · subst hb
    cases hst : s.rxState with
    | idle => exact ⟨_, receive_start hst⟩
    | accumulating =>
      obtain ⟨bs, hbs, -⟩ := holds_of_parserInv hs
      match bs, hbs with
      | [], hbs => exact ⟨_, receive_restart hst hbs.1⟩
      | [_], hbs => exact ⟨_, receive_short hst hbs.1⟩
      | t :: c :: y, hbs => exact ⟨_, receive_end hst hbs (List.cons_ne_nil c y) hs.1⟩
  · cases hst : s.rxState with
    | idle => exact ⟨_, receive_skip hst hb⟩
    | accumulating =>
      rcases Nat.lt_or_ge s.rxLen s.params.rxCap with hlt | hge
      · exact ⟨_, receive_append hst hb hlt⟩
      · exact ⟨_, receive_overflow hst hb hge⟩

/-- The conditions of the table's second part hold exactly for the case selected (R62, R128). -/
theorem caseCondition_iff {s : State} (hs : s.parserInv) (k : RxbCase) (b : Byte) :
    caseCondition k s b ↔ k = caseOf s b := by
  obtain ⟨hcap, hidle, -⟩ := hs
  by_cases hb : b = 0x00#8
  · subst hb
    cases hst : s.rxState with
    | idle =>
      rw [caseOf_idle_delim hst]
      cases k <;> simp [caseCondition, hst, hidle hst]
    | accumulating =>
      rcases (by omega : s.rxLen = 0 ∨ s.rxLen = 1 ∨ 2 ≤ s.rxLen) with h0 | h1 | hge
      · rw [caseOf_delim_zero hst h0]
        cases k <;> simp [caseCondition, hst, h0]
      · rw [caseOf_delim_one hst h1]
        cases k <;> simp [caseCondition, hst, h1]
      · rw [caseOf_delim_two hst hge]
        cases k <;> simp [caseCondition, hst] <;> omega
  · cases hst : s.rxState with
    | idle =>
      rw [caseOf_idle_data hst hb]
      cases k <;> simp [caseCondition, hst, hidle hst, hb]
    | accumulating =>
      rcases Nat.lt_or_ge s.rxLen s.params.rxCap with hlt | hge
      · rw [caseOf_data_lt hst hb hlt]
        cases k <;> simp [caseCondition, hst, hb] <;> omega
      · rw [caseOf_data_full hst hb hge]
        cases k <;> simp [caseCondition, hst, hb] <;> omega

/-- Settles O18: the table's conditions select one case each, and every case answers. -/
theorem everyByteHasExactlyOneCase : Obligations.EveryByteHasExactlyOneCase := by
  intro s b hs
  obtain ⟨t, ht⟩ := receive_answers hs b
  exact ⟨fun k => caseCondition_iff hs k b, t, ht, receive_keeps_parserInv hs ht⟩

@[simp] theorem emitTx_nil (s : State) : emitTx [] s = s := by simp [emitTx]

/-- A request returns a result and sends some bytes or none, both given by the parameters alone (R76, R96, R111). -/
theorem exec_request {i : Instr} (hi : isRequest i) (p : Params) :
    ∃ r bs, ∀ s : State, s.params = p → exec i s = .next (respond r (emitTx bs s)) := by
  rcases hi with ⟨ty, q, rfl⟩ | ⟨x, rfl⟩ | ⟨y, rfl⟩
  · by_cases hty : ty = 0x00#8
    · exact ⟨.txpRefused .zeroType, [], fun s _ => by rw [emitTx_nil]; exact if_pos hty⟩
    · rcases Nat.lt_or_ge p.txMaxPayload q.length with hlt | hge
      · exact ⟨.txpRefused .tooLong, [], fun s hs => by
          rw [emitTx_nil]; exact (txpSendsWholePacketOrRefuses s ty q).2.2 hty (hs ▸ hlt)⟩
      · exact ⟨.txpAccepted, wire p.encCloseAfterFull ty q, fun s hs => by
          subst hs; exact (txpSendsWholePacketOrRefuses s ty q).1 hty hge⟩
  · rcases Nat.lt_or_ge p.txMaxPayload x.length with hlt | hge
    · exact ⟨_, [], fun s hs => by rw [emitTx_nil]; exact (encPortEncodesOrRefuses s x).2 (hs ▸ hlt)⟩
    · exact ⟨.encAccepted (encBytes p.encCloseAfterFull x), [], fun s hs => by
        subst hs; rw [emitTx_nil]; exact (encPortEncodesOrRefuses s x).1 hge⟩
  · rcases Nat.lt_or_ge (p.rxCap - 1) y.length with hlt | hge
    · exact ⟨_, [], fun s hs => by rw [emitTx_nil]; exact (decPortDecodesOrRefuses s y).2 (hs ▸ hlt)⟩
    · exact ⟨_, [], fun s hs => by rw [emitTx_nil]; exact (decPortDecodesOrRefuses s y).1 (hs ▸ hge)⟩

/-- A code-byte row is an iteration of the decoder's loop, given by the decoder's storage alone (R52, R91). -/
theorem exec_codeRow {i : Instr} (hi : isCodeRow i) :
    ∃ g : DecWork → BlockOutcome, ∀ s, exec i s = finishBlock (g s.decoder) s := by
  rcases hi with rfl | ⟨c, rfl⟩ | rfl
  · exact ⟨fun _ => zeroBlock, fun _ => rfl⟩
  · by_cases hc : isRunCode c = true
    · exact ⟨takeBlock (literalCount c) true, fun _ => if_pos hc⟩
    · exact ⟨codeStep c, fun _ => if_neg hc⟩
  · exact ⟨takeBlock fullLiterals false, fun _ => rfl⟩

theorem finishBlock_answers (o : BlockOutcome) (s : State) : ∃ t, finishBlock o s = .next t := by
  cases o <;> exact ⟨_, rfl⟩

/-- The operations of the other agents answer a next state whatever the state (R152). -/
theorem exec_nonreceive_answers {i : Instr} (hi : receivedByte i = none) (s : State) : ∃ t, exec i s = .next t := by
  rcases receivedByte_eq_none_cases hi with rfl | hreq | hcode
  · exact ⟨_, rfl⟩
  · obtain ⟨r, bs, hexec⟩ := exec_request hreq s.params
    exact ⟨_, hexec s rfl⟩
  · obtain ⟨g, hexec⟩ := exec_codeRow hcode
    rw [hexec]
    exact finishBlock_answers _ s

theorem exec_answers {s : State} (hs : s.parserInv) (i : Instr) : ∃ t, exec i s = .next t := by
  cases hi : receivedByte i with
  | some b => rw [exec_of_receivedByte hi]; exact receive_answers hs b
  | none => exact exec_nonreceive_answers hi s

/-- Settles O51: fetching leaves the parser as it is, and every operation answers in it. -/
theorem nothingIsFatal : Obligations.NothingIsFatal := by
  intro s hs
  rcases step_cases s with ⟨i, u, hf, hstep⟩ | ⟨-, hstep⟩
  · have hu : u.parserInv := by rw [(fetch_frame hf).1]; exact hs
    obtain ⟨t, ht⟩ := exec_answers hu i
    exact ⟨t, hstep.trans ht⟩
  · exact ⟨_, hstep⟩

end Sys2Proof.Machine
end

section
/-! PROOFS. What no operation reads: changes of a state that pass through every operation, for the histories, for the
cells of `RXBUF` at or above `RX_LEN`, and for the order of a received byte and a request. -/

namespace Sys2Proof.Machine

/-! ### Changes that pass through an operation -/

/-- The change `f` of a state leaves what the receive agent reads and commutes with what it writes. -/
structure PassesReceive (f : State → State) : Prop where
  params : ∀ s, (f s).params = s.params
  rxState : ∀ s, (f s).rxState = s.rxState
  rxLen : ∀ s, (f s).rxLen = s.rxLen
  rxBuf : ∀ s, (f s).rxBuf = s.rxBuf
  withParser : ∀ st n s, (f s).withParser st n = f (s.withParser st n)
  withBuf : ∀ m s, (f s).withBuf m = f (s.withBuf m)
  drop : ∀ r s, drop r (f s) = f (drop r s)
  deliver : ∀ t p s, deliver t p (f s) = f (deliver t p s)

/-- The change `f` of a state leaves what fetching and the operations of the other agents read and commutes with what they
write. -/
structure PassesPorts (f : State → State) : Prop where
  params : ∀ s, (f s).params = s.params
  host : ∀ s, (f s).host = s.host
  decoder : ∀ s, (f s).decoder = s.decoder
  withHost : ∀ h s, (f s).withHost h = f (s.withHost h)
  withDecoder : ∀ w s, (f s).withDecoder w = f (s.withDecoder w)
  withParser : ∀ st n s, (f s).withParser st n = f (s.withParser st n)
  respond : ∀ r s, respond r (f s) = f (respond r s)
  emitTx : ∀ bs s, emitTx bs (f s) = f (emitTx bs s)

section
variable {s u : State}

/-- `MemRead` looks at the parameters, `RX_LEN` and, below it, the cells. -/
theorem readCell_congr (hp : u.params = s.params) (hl : u.rxLen = s.rxLen)
    (hc : ∀ i, i < s.rxLen → cellAt u.rxBuf i = cellAt s.rxBuf i) (i : Nat) : readCell u i = readCell s i := by
  unfold readCell
  rw [hp, hl]
  rcases Nat.lt_or_ge i s.rxLen with hlt | hge
  · rw [hc i hlt]
  · rw [if_pos hge, if_pos hge]

theorem readCells_congr (h : ∀ i, readCell u i = readCell s i) (i n : Nat) : readCells u i n = readCells s i n := by
  induction n generalizing i with
  | zero => rfl
  | succ n ih => rw [readCells, readCells, h, ih]

theorem caseOf_congr (hp : u.params = s.params) (hst : u.rxState = s.rxState) (hl : u.rxLen = s.rxLen) (b : Byte) :
    caseOf u b = caseOf s b := by rw [caseOf, caseOf, hp, hst, hl]

end

theorem closePacket_passes {f : State → State} (hf : PassesReceive f) (ty : Byte) (y : Bytes) (s : State) :
    closePacket ty y (f s) = f (closePacket ty y s) := by
  unfold closePacket
  rw [hf.params]
  cases decBytes y with
  | fail r => exact hf.drop _ s
  | ok p =>
    cases s.params.accepts ty with
    | false => exact hf.drop _ s
    | true => exact hf.deliver ty p s

theorem endEffect_passes {f : State → State} (hf : PassesReceive f) (s : State) :
    endEffect (f s) = mapNext f (endEffect s) := by
  have hread : ∀ i, readCell (f s) i = readCell s i :=
    readCell_congr (hf.params s) (hf.rxLen s) fun i _ => by rw [hf.rxBuf]
  unfold endEffect
  rw [hread, hf.rxLen, readCells_congr hread]
  cases readCell s 0 with
  | error e => rfl
  | ok ty =>
    cases readCells s 1 (s.rxLen - 1) with
    | error e => rfl
    | ok y => simp only [mapNext, closePacket_passes hf, hf.withParser]

theorem appendEffect_of_lt {s : State} (b : Byte) (h : s.rxLen < s.params.rxCap) :
    appendEffect b s = .next ((s.withBuf (setCell s.rxBuf s.rxLen b)).withParser s.rxState (s.rxLen + 1)) := by
  rw [appendEffect, writeCell_of_lt h]
  rfl

theorem appendEffect_of_ge {s : State} (b : Byte) (h : s.params.rxCap ≤ s.rxLen) :
    appendEffect b s = .fault .bufIndexOutOfRange := by
  rw [appendEffect, writeCell, if_pos h]

theorem appendEffect_passes {f : State → State} (hf : PassesReceive f) (b : Byte) (s : State) :
    appendEffect b (f s) = mapNext f (appendEffect b s) := by
  rcases Nat.lt_or_ge s.rxLen s.params.rxCap with hlt | hge
  · have hlt' : (f s).rxLen < (f s).params.rxCap := by rwa [hf.rxLen, hf.params]
    rw [appendEffect_of_lt b hlt, appendEffect_of_lt b hlt', hf.rxLen, hf.rxBuf, hf.rxState, hf.withBuf, hf.withParser]
    rfl
  · have hge' : (f s).params.rxCap ≤ (f s).rxLen := by rwa [hf.rxLen, hf.params]
    rw [appendEffect_of_ge b hge, appendEffect_of_ge b hge']
    rfl

/-- A change that the receive agent neither reads nor disturbs passes through a received byte, case by case. -/
theorem receive_passes {f : State → State} (hf : PassesReceive f) (b : Byte) (s : State) :
    receiveByte b (f s) = mapNext f (receiveByte b s) := by
  unfold receiveByte
  rw [caseOf_congr (hf.params s) (hf.rxState s) (hf.rxLen s)]
  cases caseOf s b with
  | start => exact congrArg _ (hf.withParser ..)
  | skip => rfl
  | restart => exact congrArg _ (hf.withParser ..)
  | short => simp only [shortEffect, mapNext, hf.params, hf.drop, hf.withParser]
  | packetEnd => exact endEffect_passes hf s
  | append => exact appendEffect_passes hf b s
  | overflow => simp only [overflowEffect, mapNext, hf.drop, hf.withParser]

theorem finishBlock_passes {f : State → State} (hf : PassesPorts f) (o : BlockOutcome) (s : State) :
    finishBlock o (f s) = mapNext f (finishBlock o s) := by
  cases o with
  | more w => simp only [finishBlock, mapNext, hf.withDecoder]
  | done r => simp only [finishBlock, mapNext, hf.respond, hf.withDecoder]

/-- A change that the other agents neither read nor disturb passes through their operations. -/
theorem exec_nonreceive_passes {f : State → State} (hf : PassesPorts f) {i : Instr} (hi : receivedByte i = none)
    (s : State) : exec i (f s) = mapNext f (exec i s) := by
  rcases receivedByte_eq_none_cases hi with rfl | hreq | hcode
  · show Host.Outcome.next _ = Host.Outcome.next _
    rw [hf.withParser, hf.withDecoder]
  · obtain ⟨r, bs, hexec⟩ := exec_request hreq s.params
    rw [hexec s rfl, hexec (f s) (hf.params s), hf.emitTx, hf.respond]
    rfl
  · obtain ⟨g, hexec⟩ := exec_codeRow hcode
    rw [hexec, hexec, hf.decoder]
    exact finishBlock_passes hf _ s

theorem fetch_passes {f : State → State} (hf : PassesPorts f) (s : State) :
    fetch (f s) = (fetch s).map fun r => (r.1, f r.2) := by
  have hreset : resetPresented (f s) = resetPresented s := by rw [resetPresented, resetPresented, hf.host]
  cases hr : resetPresented s with
  | true =>
    have hr' : resetPresented (f s) = true := hreset.trans hr
    rw [fetch_of_reset hr, fetch_of_reset hr', hf.host, hf.withHost]
    rfl
  | false =>
    have hr' : resetPresented (f s) = false := hreset.trans hr
    cases hd : s.decoder.rest with
    | cons c rest =>
      rw [fetch_of_code hr hd, fetch_of_code hr' ((congrArg _ (hf.decoder s)).trans hd), hf.decoder, hf.withDecoder]
      rfl
    | nil =>
      rw [fetch_of_port hr hd, fetch_of_port hr' ((congrArg _ (hf.decoder s)).trans hd)]
      cases hh : s.host with
      | nil => simp only [fetchPort, hf.host, hh, Option.map_none]
      | cons m ms =>
        rw [fetchPort_cons hh, fetchPort_cons ((hf.host s).trans hh)]
        simp only [hf.withHost, Option.map_map, Function.comp_def]

/-- A change that passes through a received byte and through every other operation passes through a step. -/
theorem step_passes {f : State → State} (hr : PassesReceive f) (hp : PassesPorts f) (s : State) :
    step (f s) = mapNext f (step s) := by
  have hfetch := fetch_passes hp s
  rcases step_cases s with ⟨i, u, hf, hstep⟩ | ⟨hf, hstep⟩
  · rw [hf] at hfetch
    rw [step_of_fetch hfetch, hstep]
    cases hi : receivedByte i with
    | some b =>
      rw [exec_of_receivedByte hi, exec_of_receivedByte hi]
      exact receive_passes hr b u
    | none => exact exec_nonreceive_passes hp hi u
  · rw [hf] at hfetch
    rw [step_of_fetch_none hfetch, hstep, hp.host, hp.withHost]
    rfl

/-! ### The histories -/

theorem withEarlier_passesReceive (h : Histories) : PassesReceive (State.withEarlier h) where
  params _ := rfl
  rxState _ := rfl
  rxLen _ := rfl
  rxBuf _ := rfl
  withParser _ _ _ := rfl
  withBuf _ _ := rfl
  drop _ _ := by simp [drop, State.withEarlier]
  deliver _ _ _ := by simp [deliver, State.withEarlier]

theorem withEarlier_passesPorts (h : Histories) : PassesPorts (State.withEarlier h) where
  params _ := rfl
  host _ := rfl
  decoder _ := rfl
  withHost _ _ := rfl
  withDecoder _ _ := rfl
  withParser _ _ _ := rfl
  respond _ _ := by simp [respond, State.withEarlier]
  emitTx _ _ := by simp [emitTx, State.withEarlier]

/-- Settles O53: an earlier history passes through every operation, since the histories are only appended to. -/
theorem historiesAreNeverRead : Obligations.HistoriesAreNeverRead := fun s h =>
  step_passes (withEarlier_passesReceive h) (withEarlier_passesPorts h) s

/-! ### A received byte and a request -/

theorem request_passesReceive (r : Response) (bs : Bytes) : PassesReceive fun s => respond r (emitTx bs s) where
  params _ := rfl
  rxState _ := rfl
  rxLen _ := rfl
  rxBuf _ := rfl
  withParser _ _ _ := rfl
  withBuf _ _ := rfl
  drop _ _ := rfl
  deliver _ _ _ := rfl

/-- Settles O55: what a request does depends on the parameters alone, and it passes through a received byte. -/
theorem receiveAndPortRequestsCommute : Obligations.ReceiveAndPortRequestsCommute := by
  intro s u v b t p j hj hu hv
  have hreq : isRequest j := by
    simp only [List.mem_cons, List.not_mem_nil, or_false] at hj
    rcases hj with rfl | rfl | rfl
    · exact .inl ⟨_, _, rfl⟩
    · exact .inr (.inl ⟨_, rfl⟩)
    · exact .inr (.inr ⟨_, rfl⟩)
  obtain ⟨r, bs, hexec⟩ := exec_request hreq s.params
  have hparams : u.params = s.params := exec_params hu
  cases (hexec s rfl).symm.trans hv
  refine ⟨respond r (emitTx bs u), hexec u hparams, ?_⟩
  calc exec (.rxb b) (respond r (emitTx bs s))
      = mapNext (fun s => respond r (emitTx bs s)) (exec (.rxb b) s) :=
        receive_passes (request_passesReceive r bs) b s
    _ = .next (respond r (emitTx bs u)) := by rw [hu]; rfl

/-! ### The cells at or above `RX_LEN` -/

theorem withBuf_passesPorts (m : List Host.Cell) : PassesPorts (State.withBuf m) where
  params _ := rfl
  host _ := rfl
  decoder _ := rfl
  withHost _ _ := rfl
  withDecoder _ _ := rfl
  withParser _ _ _ := rfl
  respond _ _ := rfl
  emitTx _ _ := rfl

theorem sameBelowRxLen_withBuf {s : State} {m : List Host.Cell} :
    sameBelowRxLen s (s.withBuf m) ↔ ∀ i, i < s.rxLen → cellAt m i = cellAt s.rxBuf i :=
  and_iff_right rfl

/-- In an empty parser no cell is below `RX_LEN`. -/
theorem sameBelowRxLen_of_empty {s : State} (m : List Host.Cell) (h : s.rxLen = 0) : sameBelowRxLen s (s.withBuf m) :=
  sameBelowRxLen_withBuf.mpr fun i hi => by omega

theorem closePacket_withBuf (ty : Byte) (y : Bytes) (m : List Host.Cell) (s : State) :
    closePacket ty y (s.withBuf m) = (closePacket ty y s).withBuf m := by
  unfold closePacket
  cases decBytes y with
  | fail r => rfl
  | ok p => cases h : s.params.accepts ty <;> simp [h] <;> rfl

/-- A byte stored at index `RX_LEN` of two buffers that are the same below it. -/
theorem sameBelowRxLen_append {s : State} {m : List Host.Cell} (b : Byte)
    (h : ∀ i, i < s.rxLen → cellAt m i = cellAt s.rxBuf i) :
    sameBelowRxLen ((s.withBuf (setCell s.rxBuf s.rxLen b)).withParser s.rxState (s.rxLen + 1))
      ((s.withBuf (setCell m s.rxLen b)).withParser s.rxState (s.rxLen + 1)) := by
  refine ⟨rfl, fun i hi => ?_⟩
  simp only [withParser_rxBuf, withBuf_rxBuf]
  rcases Nat.lt_succ_iff_lt_or_eq.mp hi with hi | rfl
  · rw [cellAt_setCell_of_ne hi.ne, cellAt_setCell_of_ne hi.ne, h i hi]
  · rw [cellAt_setCell_self, cellAt_setCell_self]

/-- A received byte: every case but skip, end and append leaves no cell readable; the end marker reads below `RX_LEN` only,
and the append case writes the same byte at the same index. -/
theorem receive_sameBelowRxLen {s : State} {m : List Host.Cell} (b : Byte)
    (h : ∀ i, i < s.rxLen → cellAt m i = cellAt s.rxBuf i) :
    sameOutcome sameBelowRxLen (receiveByte b s) (receiveByte b (s.withBuf m)) := by
  unfold receiveByte
  rw [caseOf_congr (u := s.withBuf m) (s := s) rfl rfl rfl]
  cases caseOf s b with
  | start => exact sameBelowRxLen_of_empty (s := s.withParser .accumulating 0) m rfl
  | skip => exact sameBelowRxLen_withBuf.mpr h
  | restart => exact sameBelowRxLen_of_empty (s := s.withParser .accumulating 0) m rfl
  | short => exact sameBelowRxLen_of_empty (s := (drop .shortPacket s).withParser _ 0) m rfl
  | overflow => exact sameBelowRxLen_of_empty (s := (drop .overflow s).withParser .idle 0) m rfl
  | packetEnd =>
    have hread : ∀ i, readCell (s.withBuf m) i = readCell s i := readCell_congr rfl rfl h
    simp only [endEffect, hread, readCells_congr hread, closePacket_withBuf, withBuf_rxLen]
    cases readCell s 0 with
    | error e => rfl
    | ok ty =>
      cases readCells s 1 (s.rxLen - 1) with
      | error e => rfl
      | ok y => exact sameBelowRxLen_of_empty (s := (closePacket ty y s).withParser .idle 0) m rfl
  | append =>
    rcases Nat.lt_or_ge s.rxLen s.params.rxCap with hlt | hge
    · simp only [appendEffect_of_lt b hlt, appendEffect_of_lt (s := s.withBuf m) b hlt]
      exact sameBelowRxLen_append b h
    · simp only [appendEffect_of_ge b hge, appendEffect_of_ge (s := s.withBuf m) b hge]
      rfl

theorem exec_sameBelowRxLen {s : State} {m : List Host.Cell} (i : Instr)
    (h : ∀ i, i < s.rxLen → cellAt m i = cellAt s.rxBuf i) :
    sameOutcome sameBelowRxLen (exec i s) (exec i (s.withBuf m)) := by
  cases hi : receivedByte i with
  | some b =>
    rw [exec_of_receivedByte hi, exec_of_receivedByte hi]
    exact receive_sameBelowRxLen b h
  | none =>
    obtain ⟨t, ht⟩ := exec_nonreceive_answers hi s
    rw [exec_nonreceive_passes (withBuf_passesPorts m) hi, ht]
    obtain ⟨-, hcell, -, -, -, -, hparser, -⟩ := portAndCodeFrame i s t hi ht
    by_cases hreset : i = .reset
    · subst hreset
      cases ht
      exact sameBelowRxLen_of_empty m rfl
    · refine sameBelowRxLen_withBuf.mpr fun j hj => ?_
      rw [hcell j, h j ((hparser hreset).2 ▸ hj)]

/-- Settles O54: the cells pass through fetching and the other agents, and the receive agent reads below `RX_LEN` only. -/
theorem unreadableCellsDoNotMatter : Obligations.UnreadableCellsDoNotMatter := by
  rintro s u ⟨hu, hcells⟩
  generalize u.rxBuf = m at hu hcells
  subst hu
  have hfetch := fetch_passes (withBuf_passesPorts m) s
  rcases step_cases s with ⟨i, t, hf, hstep⟩ | ⟨hf, hstep⟩
  · rw [hf] at hfetch
    rw [step_of_fetch hfetch, hstep]
    refine exec_sameBelowRxLen i ?_
    rw [(fetch_frame hf).1]
    exact hcells
  · rw [hf] at hfetch
    rw [step_of_fetch_none hfetch, hstep]
    exact sameBelowRxLen_withBuf (s := s.withHost s.host.tail) |>.mpr hcells

end Sys2Proof.Machine
end

section
/-! PROOFS. How the receive parser recovers: after delimiters, garbage, a packet that is too long, and a reset. -/

namespace Sys2Proof.Machine

/-! ### Delimiters -/

theorem caseOf_delim_mem (s : State) : caseOf s 0x00#8 ∈ [.start, .restart, .short, .packetEnd] := by
  rcases rxbCase_of_byte s.rxState s.rxLen s.params.rxCap 0x00#8 with ⟨-, h⟩ | ⟨h, -⟩
  · exact h
  · exact absurd rfl h

/-- After a delimiter the parser is empty, whichever case it was (R129). -/
theorem receive_delim_empties {s t : State} (h : receiveByte 0x00#8 s = .next t) : t.rxLen = 0 := by
  have hdelim := caseOf_delim_mem s
  rcases receive_cases h with
    ⟨-, rfl⟩ | ⟨hc, -⟩ | ⟨-, rfl⟩ | ⟨-, rfl⟩ | ⟨-, ty, y, -, -, rfl⟩ | ⟨hc, -⟩ | ⟨-, rfl⟩
  case inr.inl => simp [hc] at hdelim
  case inr.inr.inr.inr.inr.inl => simp [hc] at hdelim
  all_goals rfl

/-- A delimiter in an empty parser leaves it accumulating and changes nothing else. -/
theorem receive_delim_of_rxLen_zero {s : State} (h : s.rxLen = 0) :
    receiveByte 0x00#8 s = .next (s.withParser .accumulating 0) := by
  cases hst : s.rxState with
  | idle => exact receive_start hst
  | accumulating => exact receive_restart hst h

/-- Settles O20: one delimiter empties the parser, and a delimiter in an empty parser is a start marker. -/
theorem twoDelimitersResynchronize : Obligations.TwoDelimitersResynchronize := by
  intro s hs
  obtain ⟨t, ht⟩ := receive_answers hs 0x00#8
  have hlen : t.rxLen = 0 := receive_delim_empties ht
  refine ⟨⟨t, feed_cons [] ht, hlen⟩, t.withParser .accumulating 0, ?_, rfl, rfl⟩
  rw [feed_cons _ ht, feed_cons _ (receive_delim_of_rxLen_zero hlen)]
  rfl

/-! ### Any bytes -/

/-- Any bytes fed to a parser that meets its invariants leave one that does, with the same parameters, and with what was
delivered before still in front. -/
theorem feed_of_parserInv {s : State} (bs : Bytes) (hs : s.parserInv) :
    ∃ t, feed bs s = .next t ∧ t.parserInv ∧ t.params = s.params ∧ s.deliveries <+: t.deliveries := by
  induction bs generalizing s with
  | nil => exact ⟨s, rfl, hs, rfl, List.prefix_rfl⟩
  | cons b bs ih =>
    obtain ⟨u, hu⟩ := receive_answers hs b
    obtain ⟨t, ht, hinv, hparams, hpre⟩ := ih (receive_keeps_parserInv hs hu)
    obtain ⟨-, hgrow, -⟩ := receive_histories_grow hu
    exact ⟨t, (feed_cons bs hu).trans ht, hinv, hparams.trans (receive_frame hu).1, hgrow.trans hpre⟩

/-- Bytes that end in a delimiter leave the parser empty. -/
theorem feed_delimited {s : State} (bs : Bytes) (hs : s.parserInv) :
    ∃ t, feed (bs ++ [0x00#8]) s = .next t ∧ t.rxLen = 0 ∧ t.params = s.params ∧ s.deliveries <+: t.deliveries := by
  obtain ⟨u, hu, hinv, hparams, hpre⟩ := feed_of_parserInv bs hs
  obtain ⟨t, ht⟩ := receive_answers hinv 0x00#8
  obtain ⟨-, hgrow, -⟩ := receive_histories_grow ht
  refine ⟨t, ?_, receive_delim_empties ht, (receive_frame ht).1.trans hparams, hpre.trans hgrow⟩
  rw [feed_append _ hu, feed_cons [] ht]
  rfl

theorem State.canReceive_congr {s t : State} {closing : Bool} {q : Delivery} (h : t.params = s.params) :
    t.canReceive closing q ↔ s.canReceive closing q := by
  rw [State.canReceive, State.canReceive, h]

/-- A packet's image fed to an empty parser, idle or not: the packet is delivered as it was sent, the parser is idle and
empty again, and nothing else changes but the cells of `RXBUF` (R116). -/
theorem feed_wire_of_empty {s : State} {closing : Bool} {q : Delivery} (hlen : s.rxLen = 0)
    (hq : s.canReceive closing q) :
    ∃ buf, feed (wire closing q.typeId q.payload) s =
      .next (((deliver q.typeId q.payload s).withBuf buf).withParser .idle 0) := by
  obtain ⟨buf, hpacket⟩ := feed_packet_of_started (s := s.withParser .accumulating 0) rfl rfl hq
  exact ⟨buf, by rw [wire_eq_delimited, feed_cons _ (receive_delim_of_rxLen_zero hlen), hpacket]; rfl⟩

theorem wireAll_pair (closing : Bool) (q r : Delivery) :
    wireAll closing [q, r] = wire closing q.typeId q.payload ++ wire closing r.typeId r.payload := by
  simp [wireAll]

/-- Settles O23: the first packet's end marker, whatever it is taken for, leaves the parser empty for the second. -/
theorem garbageCostsAtMostOnePacket : Obligations.GarbageCostsAtMostOnePacket := by
  intro s garbage closing q r hs _ hr
  obtain ⟨t, hfirst, hlen, hparams, earlier, hearlier⟩ :=
    feed_delimited (garbage ++ 0x00#8 :: (q.typeId :: encBytes closing q.payload)) hs
  obtain ⟨buf, hsecond⟩ := feed_wire_of_empty hlen ((State.canReceive_congr hparams).mpr hr)
  have hfeed : feed (garbage ++ wireAll closing [q, r]) s =
      .next (((deliver r.typeId r.payload t).withBuf buf).withParser .idle 0) := by
    rw [wireAll_pair, wire_eq_delimited, ← hsecond, ← feed_append _ hfirst]
    simp only [List.append_assoc, List.cons_append]
  exact ⟨_, earlier, hfeed, by simp [hearlier], rfl, rfl⟩

/-! ### A packet that is too long -/

/-- Zero-free bytes are discarded while the parser is idle (R122). -/
theorem feed_skip {s : State} {data : Bytes} (hidle : s.rxState = .idle) (h0 : 0x00#8 ∉ data) :
    feed data s = .next s := by
  induction data with
  | nil => rfl
  | cons b data ih =>
    rw [List.mem_cons, not_or] at h0
    rw [feed_cons data (receive_skip hidle (Ne.symm h0.1)), ih h0.2]

/-- More zero-free bytes than the buffer takes overflow it once: those behind the overflow are discarded (R127). -/
theorem feed_overflow {s : State} {data : Bytes} (hst : s.rxState = .accumulating) (hlen : s.rxLen = 0)
    (h0 : 0x00#8 ∉ data) (hlong : s.params.rxCap < data.length) :
    ∃ buf, feed data s = .next (((drop .overflow s).withBuf buf).withParser .idle 0) := by
  obtain ⟨b, rest, hsplit⟩ : ∃ b rest, data.drop s.params.rxCap = b :: rest :=
    List.exists_cons_of_ne_nil (by simpa using hlong)
  have hdata : data = data.take s.params.rxCap ++ b :: rest := by rw [← hsplit, List.take_append_drop]
  have hfits : (data.take s.params.rxCap).length = s.params.rxCap := List.length_take_of_le hlong.le
  generalize data.take s.params.rxCap = fits at hdata hfits
  subst hdata
  simp only [List.mem_append, List.mem_cons, not_or] at h0
  obtain ⟨h0fits, hb, h0rest⟩ := h0
  obtain ⟨buf, n, hfeed, hholds, -⟩ := feed_data fits hst (holds_nil hlen) h0fits (by simp [hfits])
  have hfull : ((s.withBuf buf).withParser .accumulating n).params.rxCap ≤
      ((s.withBuf buf).withParser .accumulating n).rxLen := by rw [hholds]; simp [hfits]
  refine ⟨buf, ?_⟩
  rw [feed_append _ hfeed, feed_cons _ (receive_overflow rfl (Ne.symm hb) hfull), feed_skip rfl h0rest]
  rfl

/-- Settles O24: the packet that is too long overflows once, its end marker starts the next packet, and that packet's own
start marker starts it again. -/
theorem oversizedPacketCostsOnlyItself : Obligations.OversizedPacketCostsOnlyItself := by
  intro s closing q r hidle hq hlong hr
  obtain ⟨buf, hover⟩ := feed_overflow (s := s.withParser .accumulating 0) rfl rfl
    (zero_notMem_wire_body closing q.payload hq) (by simpa using hlong)
  obtain ⟨buf', hsecond⟩ :=
    feed_wire_of_empty (s := ((drop .overflow s).withBuf buf).withParser .accumulating 0) rfl hr
  have hfeed : feed (wireAll closing [q, r]) s =
      feed (wire closing r.typeId r.payload) (((drop .overflow s).withBuf buf).withParser .accumulating 0) := by
    rw [wireAll_pair, wire_eq_delimited, List.cons_append, feed_cons _ (receive_start hidle), List.append_assoc,
      feed_append _ hover, List.singleton_append, feed_cons _ (receive_start rfl)]
    rfl
  exact ⟨_, hfeed.trans hsecond, rfl, rfl, rfl, rfl⟩

/-! ### A delimiter shared, and a stream joined in the middle -/

/-- Settles O25: the shared delimiter ends the first packet, so the second one's bytes are discarded. -/
theorem sharedDelimiterLosesSecondPacket : Obligations.SharedDelimiterLosesSecondPacket := by
  intro s closing q r hidle hq hr
  obtain ⟨buf, hfirst⟩ := feed_wire_of_idle hidle hq
  have hskip := feed_skip (s := ((deliver q.typeId q.payload s).withBuf buf).withParser .idle 0) rfl
    (zero_notMem_wire_body closing r.payload hr)
  have hfeed : feed (wire closing q.typeId q.payload ++ r.typeId :: (encBytes closing r.payload ++ [0x00#8])) s =
      .next (((deliver q.typeId q.payload s).withBuf buf).withParser .accumulating 0) := by
    rw [feed_append _ hfirst, ← List.cons_append, feed_append _ hskip, feed_cons [] (receive_start rfl)]
    rfl
  exact ⟨_, hfeed, rfl, rfl, rfl, rfl⟩

/-- Settles O26: an idle parser discards the noise, and a delimiter before the packet's own only starts it twice. -/
theorem joiningMidStreamLosesNoLaterPacket : Obligations.JoiningMidStreamLosesNoLaterPacket := by
  intro s u noise closing q hreset hnoise hq
  have hskip : feed noise u = .next u := by cases hreset; exact feed_skip rfl hnoise
  have hstart : receiveByte 0x00#8 u = .next (u.withParser .accumulating 0) := by
    cases hreset; exact receive_start rfl
  obtain ⟨hlen, hparams, hdeliveries, hdrops⟩ :
      u.rxLen = 0 ∧ u.params = s.params ∧ u.deliveries = s.deliveries ∧ u.drops = s.drops := by
    cases hreset; exact ⟨rfl, rfl, rfl, rfl⟩
  have hq' : u.canReceive closing q := (State.canReceive_congr hparams).mpr hq
  obtain ⟨buf, hpacket⟩ := feed_wire_of_empty hlen hq'
  obtain ⟨buf', hpacket'⟩ := feed_wire_of_empty (s := u.withParser .accumulating 0) rfl hq'
  refine ⟨⟨_, (feed_append _ hskip).trans hpacket, ?_, hdrops⟩,
    _, (feed_append _ hskip).trans ((feed_cons _ hstart).trans hpacket'), ?_, hdrops⟩
  all_goals
    rw [← hdeliveries]
    rfl

end Sys2Proof.Machine
end

section
/-! PROOFS. The codec block by block: what `dec` reports, the encoder by runs, the exact length of an encoding, and the
canonical form of what `dec` accepts. -/

namespace Sys2Proof.Machine

/-! ### The decoder block by block -/

/-- Settles O34: a block in front of the end, of bytes that decode, and of bytes that fail. -/
theorem decTakesBlockByBlock : Obligations.DecTakesBlockByBlock := by
  rintro c lits ⟨hc, hl, h0⟩
  refine ⟨decBytes_last_block hc hl h0, fun rest hne => ⟨fun x hx => ?_, fun r hr => ?_⟩⟩
  · rw [decBytes_block_of_ok hc hl h0 hx]
    by_cases hf : c = 0xFF#8 <;> simp [hf]
  · rw [decBytes_block rest hc hl h0, if_neg hne, hr]
    rfl

/-- A failure behind whole blocks is the failure of the whole. -/
theorem WholeBlocks.decBytes_append_fail {pre rest : Bytes} {r : DecFail} (h : WholeBlocks pre) (hne : rest ≠ [])
    (hr : decBytes rest = .fail r) : decBytes (pre ++ rest) = .fail r := by
  induction h with
  | nil => exact hr
  | cons c lits tail hblock _ ih =>
    rw [List.cons_append, List.append_assoc]
    exact ((decTakesBlockByBlock c lits hblock).2 _ (by simp [hne])).2 r ih

/-- A success behind whole blocks is a success of the whole. -/
theorem WholeBlocks.decBytes_append_ok {pre rest x : Bytes} (h : WholeBlocks pre) (hx : decBytes rest = .ok x) :
    ∃ x', decBytes (pre ++ rest) = .ok x' := by
  induction h with
  | nil => exact ⟨x, hx⟩
  | cons c lits tail hblock _ ih =>
    obtain ⟨hc, hl, h0⟩ := hblock
    obtain ⟨x', hx'⟩ := ih
    rw [List.cons_append, List.append_assoc]
    exact ⟨_, decBytes_block_of_ok hc hl h0 hx'⟩

/-- Settles O35: the defects of the first block that is none, with the whole blocks before it taken off. -/
theorem decReportsTheFirstDefect : Obligations.DecReportsTheFirstDefect := by
  refine ⟨rfl, fun pre hpre rest => ⟨?_, fun c hc => ⟨fun hlen => ?_, fun hlen h0 => ?_, fun hlen h0 => ?_⟩⟩⟩
  · exact hpre.decBytes_append_fail (List.cons_ne_nil _ _) (decBytes_cons 0x00#8 rest)
  · refine hpre.decBytes_append_fail (List.cons_ne_nil _ _) ?_
    rw [decBytes_cons, codeStep_of_ne hc, takeBlock_overrun _ hlen]
  · refine hpre.decBytes_append_fail (List.cons_ne_nil _ _) ?_
    rw [decBytes_cons, codeStep_of_ne hc, takeBlock_zeroData _ hlen h0]
  · exact hpre.decBytes_append_ok (decBytes_last_block hc hlen h0)

/-! ### The encoder run by run -/

/-- Literals that leave the block unfinished are added to it. -/
theorem encFrom_lits (closing : Bool) {blk lits : Bytes} (x : Bytes) (h0 : 0x00#8 ∉ lits)
    (hl : blk.length + lits.length ≤ 253) :
    encFrom closing blk true (lits ++ x) = encFrom closing (blk ++ lits) true x := by
  induction lits generalizing blk with
  | nil => simp
  | cons b lits ih =>
    rw [List.mem_cons, not_or] at h0
    rw [List.length_cons] at hl
    rw [List.cons_append, encFrom_data closing true _ (Ne.symm h0.1) (by omega),
      ih h0.2 (by rw [List.length_append, List.length_singleton]; omega), ← List.append_cons]

/-- 254 literals are a full block (R72). -/
theorem encFrom_fullBlock (closing : Bool) {lits : Bytes} (x : Bytes) (h0 : 0x00#8 ∉ lits) (hl : lits.length = 254) :
    encFrom closing [] true (lits ++ x) = 0xFF#8 :: (lits ++ encFrom closing [] false x) := by
  obtain ⟨init, b, rfl⟩ : ∃ init b, lits = init ++ [b] := by
    have hne : lits ≠ [] := by rintro rfl; simp at hl
    exact ⟨_, _, (List.dropLast_concat_getLast hne).symm⟩
  simp only [List.mem_append, List.mem_singleton, not_or] at h0
  have hinit : init.length = 253 := by simpa using hl
  rw [List.append_assoc, encFrom_lits closing _ h0.1 (by simp [hinit]), List.nil_append, List.singleton_append,
    encFrom_full closing true x (Ne.symm h0.2) hinit]
  simp

/-- After a full block `enc` goes on as from its start, while input remains. -/
theorem encFrom_false_of_ne_nil (closing : Bool) (blk : Bytes) {x : Bytes} (h : x ≠ []) :
    encFrom closing blk false x = encFrom closing blk true x := by
  obtain ⟨b, x, rfl⟩ := List.exists_cons_of_ne_nil h
  rfl

/-- A zero-free run that fits in one block, at the end of the input and before a zero (R71). -/
theorem encFrom_shortRun {r : Bytes} (h0 : 0x00#8 ∉ r) (hl : r.length ≤ 253) :
    encFrom false [] true r = runCode r.length :: r ∧
    ∀ x, encFrom false [] true (r ++ 0x00#8 :: x) = runCode r.length :: (r ++ encFrom false [] true x) := by
  refine ⟨?_, fun x => ?_⟩
  · have h := encFrom_lits false (blk := []) [] h0 (by simpa using hl)
    simpa [encFrom_nil] using h
  · rw [encFrom_lits false _ h0 (by simpa using hl), List.nil_append, encFrom_zero]

/-- A zero-free run that does not fit in one block begins with a full one, whatever follows it (R72). -/
theorem encFrom_longRun {r : Bytes} (tail : Bytes) (h0 : 0x00#8 ∉ r) (hlong : 253 < r.length) :
    encFrom false [] true (r ++ tail) =
      0xFF#8 :: (r.take 254 ++ encFrom false [] false (r.drop 254 ++ tail)) := by
  have h0lits : 0x00#8 ∉ r.take 254 := fun h => h0 (List.mem_of_mem_take h)
  rw [← encFrom_fullBlock false _ h0lits (List.length_take_of_le hlong), ← List.append_assoc, List.take_append_drop]

/-- The same run by R71, unless it is the last one and one full block is all of it. -/
theorem runBlocks_longRun (n : Nat) {final : Bool} {r : Bytes} (hlong : 253 < r.length)
    (h : ¬ (r.length = 254 ∧ final = true)) :
    runBlocks (n + 1) final r = 0xFF#8 :: (r.take 254 ++ runBlocks n final (r.drop 254)) := by
  rw [runBlocks, if_neg (Nat.not_le.mpr hlong), if_neg h]

/-- A zero-free run in blocks is what `enc` makes of it, at the end of the input and before a zero (R71, R72). -/
theorem encFrom_run (n : Nat) {r : Bytes} (h0 : 0x00#8 ∉ r) (hn : r.length < n) :
    encFrom false [] true r = runBlocks n true r ∧
    ∀ x, encFrom false [] true (r ++ 0x00#8 :: x) = runBlocks n false r ++ encFrom false [] true x := by
  induction n generalizing r with
  | zero => exact absurd hn (Nat.not_lt_zero _)
  | succ n ih =>
    rcases Nat.lt_or_ge 253 r.length with hlong | hshort
    · obtain ⟨ihend, ihzero⟩ := ih (r := r.drop 254) (fun h => h0 (List.mem_of_mem_drop h))
        (by rw [List.length_drop]; omega)
      refine ⟨?_, fun x => ?_⟩
      · have hend := encFrom_longRun [] h0 hlong
        rw [List.append_nil, List.append_nil] at hend
        by_cases h254 : r.length = 254
        · rw [hend, runBlocks, if_neg (Nat.not_le.mpr hlong), if_pos ⟨h254, rfl⟩,
            List.drop_of_length_le h254.le, List.take_of_length_le h254.le]
          simp [encFrom_nil]
        · have hne : r.drop 254 ≠ [] := by rw [Ne, List.drop_eq_nil_iff]; omega
          rw [hend, runBlocks_longRun n hlong (by simp [h254]), encFrom_false_of_ne_nil false [] hne, ihend]
      · rw [encFrom_longRun _ h0 hlong, runBlocks_longRun n hlong (by simp),
          encFrom_false_of_ne_nil false [] (by simp), ihzero, List.cons_append, List.append_assoc]
    · obtain ⟨hend, hzero⟩ := encFrom_shortRun h0 hshort
      refine ⟨?_, fun x => ?_⟩
      · rw [hend, runBlocks, if_pos hshort, runCode]
      · rw [hzero, runBlocks, if_pos hshort, runCode, List.cons_append]

theorem splitRuns_of_zero_notMem {r : Bytes} (h0 : 0x00#8 ∉ r) : splitRuns r = [r] := by
  induction r with
  | nil => rfl
  | cons b r ih =>
    rw [List.mem_cons, not_or] at h0
    rw [splitRuns, if_neg (Ne.symm h0.1), ih h0.2]

/-- The first run of the input ends at its first zero (R71). -/
theorem splitRuns_append_zero {r : Bytes} (x : Bytes) (h0 : 0x00#8 ∉ r) :
    splitRuns (r ++ 0x00#8 :: x) = r :: splitRuns x := by
  induction r with
  | nil => exact if_pos rfl
  | cons b r ih =>
    rw [List.mem_cons, not_or] at h0
    rw [List.cons_append, splitRuns, if_neg (Ne.symm h0.1), ih h0.2]

theorem splitRuns_ne_nil (x : Bytes) : splitRuns x ≠ [] := by
  cases x with
  | nil => exact List.cons_ne_nil _ _
  | cons b x =>
    unfold splitRuns
    split
    · exact List.cons_ne_nil _ _
    · split <;> exact List.cons_ne_nil _ _

theorem encByRuns_of_zero_notMem {r : Bytes} (h0 : 0x00#8 ∉ r) : encByRuns r = runBlocks (r.length + 1) true r := by
  simp [encByRuns, splitRuns_of_zero_notMem h0]

theorem encByRuns_append_zero {r : Bytes} (x : Bytes) (h0 : 0x00#8 ∉ r) :
    encByRuns (r ++ 0x00#8 :: x) = runBlocks (r.length + 1) false r ++ encByRuns x := by
  obtain ⟨first, rest, hruns⟩ := List.exists_cons_of_ne_nil (splitRuns_ne_nil x)
  simp [encByRuns, splitRuns_append_zero x h0, hruns]

/-- Settles O28: run by run, by induction on the length of the input behind its first zero. -/
theorem encByPassEqualsEncByRuns : Obligations.EncByPassEqualsEncByRuns := by
  intro x
  by_cases h0 : 0x00#8 ∈ x
  · obtain ⟨r, tail, rfl, hr⟩ := List.eq_append_cons_of_mem h0
    have hlt : tail.length < (r ++ 0x00#8 :: tail).length := by
      simp only [List.length_append, List.length_cons]; omega
    have ih : encBytes false tail = encByRuns tail := encByPassEqualsEncByRuns tail
    rw [encByRuns_append_zero tail hr, ← ih, encBytes_eq_encFrom, encBytes_eq_encFrom]
    exact (encFrom_run _ hr (Nat.lt_succ_self _)).2 tail
  · rw [encByRuns_of_zero_notMem h0, encBytes_eq_encFrom]
    exact (encFrom_run _ h0 (Nat.lt_succ_self _)).1
termination_by x => x.length

/-! ### The length of an encoding -/

/-- The blocks of a final run of `n > 0` bytes: one code byte for every 254 bytes that are begun. -/
theorem runBlocks_true_length (n : Nat) {r : Bytes} (hne : r ≠ []) (hn : r.length < n) :
    (runBlocks n true r).length = r.length + (r.length + 253) / 254 := by
  induction n generalizing r with
  | zero => exact absurd hn (Nat.not_lt_zero _)
  | succ n ih =>
    have hpos : 0 < r.length := List.length_pos_of_ne_nil hne
    unfold runBlocks
    split
    · rw [List.length_cons]; omega
    · split
      · rw [List.length_cons]; omega
      · rename_i hlong h254
        simp only [and_true] at h254
        rw [List.length_cons, List.length_append, ih (by rw [Ne, List.drop_eq_nil_iff]; omega)
          (by rw [List.length_drop]; omega)]
        simp only [List.length_take, List.length_drop]
        omega

/-- Settles O30: an encoding is longer than what it decodes to; a zero-free input is one final run. -/
theorem encodingLengthBounds : Obligations.EncodingLengthBounds := by
  intro x
  refine ⟨(decOutputIsShorter _ x (decOfEncIsTheInput false x)).1, ?_, fun hne h0 => ?_⟩
  · simpa [encBytes_eq_encFrom] using encFrom_length_le (blk := []) x (by simp)
  · rw [encByPassEqualsEncByRuns x, encByRuns_of_zero_notMem h0]
    exact runBlocks_true_length _ hne (Nat.lt_succ_self _)

/-! ### The canonical form of what decodes -/

/-- One block before the end of a sequence leaves its last block. -/
theorem endsInFullBlock_cons {c : Byte} {lits y : Bytes} (hblock : isBlock c lits) (h : endsInFullBlock y) :
    endsInFullBlock (c :: (lits ++ y)) := by
  obtain ⟨pre, last, hpre, hlast, rfl⟩ := h
  exact ⟨c :: (lits ++ pre), last, .cons c lits pre hblock hpre, hlast, by simp⟩

/-- The empty input's encoding has no full block. -/
theorem not_endsInFullBlock_enc_nil : ¬ endsInFullBlock (encBytes false []) := by
  rintro ⟨pre, lits, -, ⟨-, hl, -⟩, he⟩
  have hlen := congrArg List.length he
  simp only [List.length_append, List.length_cons, hl] at hlen
  have henc : (encBytes false []).length = 1 := rfl
  have hfull : literalCount 0xFF#8 = 254 := rfl
  omega

/-- The encoding of a full block's literals in front of an input. -/
theorem encBytes_full {lits : Bytes} (x : Bytes) (h0 : 0x00#8 ∉ lits) (hl : lits.length = 254) :
    encBytes false (lits ++ x) = 0xFF#8 :: (lits ++ if x = [] then [] else encBytes false x) := by
  rw [encBytes_eq_encFrom, encFrom_fullBlock false x h0 hl]
  by_cases hx : x = []
  · subst hx; rfl
  · rw [if_neg hx, encFrom_false_of_ne_nil false [] hx, encBytes_eq_encFrom]

/-- The code byte that announces `n` literals, other than `0xFF`, is that of a run of `n`. -/
theorem eq_runCode {c : Byte} {n : Nat} (h0 : c ≠ 0x00#8) (hf : c ≠ 0xFF#8) (hn : n = literalCount c) :
    n ≤ 253 ∧ runCode n = c := by
  have hz : c.toNat ≠ 0 := fun h => h0 (BitVec.eq_of_toNat_eq h)
  have hff : c.toNat ≠ 255 := fun h => hf (BitVec.eq_of_toNat_eq h)
  have hlt : c.toNat < 256 := c.isLt
  unfold literalCount at hn
  refine ⟨by omega, BitVec.eq_of_toNat_eq ?_⟩
  rw [runCode, BitVec.toNat_ofNat]
  omega

/-- `y` is the canonical encoding of `x`, or that encoding closed by `[0x01]` behind a final full block (R100). -/
def isCanonicalOrClosed (y x : Bytes) : Prop :=
  encBytes false x = y ∨ y = encBytes false x ++ [0x01#8] ∧ endsInFullBlock (encBytes false x)

/-- A block that is no full one keeps the form: `enc` closes it at the zero it implies. -/
theorem isCanonicalOrClosed_run {c : Byte} {lits y x : Bytes} (hblock : isBlock c lits) (hf : c ≠ 0xFF#8)
    (h : isCanonicalOrClosed y x) : isCanonicalOrClosed (c :: (lits ++ y)) (lits ++ 0x00#8 :: x) := by
  have ⟨hc, hl, h0⟩ := hblock
  obtain ⟨hle, hcode⟩ := eq_runCode hc hf hl
  have henc : encBytes false (lits ++ 0x00#8 :: x) = c :: (lits ++ encBytes false x) := by
    rw [encBytes_eq_encFrom, (encFrom_shortRun h0 hle).2 x, hcode, encBytes_eq_encFrom]
  rw [isCanonicalOrClosed, henc]
  rcases h with rfl | ⟨rfl, hfull⟩
  · exact .inl rfl
  · exact .inr ⟨by simp, endsInFullBlock_cons hblock hfull⟩

/-- A full block keeps the form: behind it a sequence that decodes to nothing is a closing `[0x01]`. -/
theorem isCanonicalOrClosed_full {lits y x : Bytes} (hblock : isBlock 0xFF#8 lits) (h : isCanonicalOrClosed y x) :
    isCanonicalOrClosed (0xFF#8 :: (lits ++ y)) (lits ++ x) := by
  have ⟨_, hl, h0⟩ := hblock
  rw [isCanonicalOrClosed, encBytes_full x h0 hl]
  by_cases hx : x = []
  · subst hx
    rcases h with rfl | ⟨-, hfull⟩
    · have henc : encBytes false [] = [0x01#8] := rfl
      exact .inr ⟨by simp [henc], [], lits, .nil, hblock, by simp⟩
    · exact absurd hfull not_endsInFullBlock_enc_nil
  · rw [if_neg hx]
    rcases h with rfl | ⟨rfl, hfull⟩
    · exact .inl rfl
    · exact .inr ⟨by simp, endsInFullBlock_cons hblock hfull⟩

/-- A last block is the canonical encoding of its literals. -/
theorem encBytes_last_block {c : Byte} {lits : Bytes} (hblock : isBlock c lits) : encBytes false lits = c :: lits := by
  obtain ⟨hc, hl, h0⟩ := hblock
  by_cases hf : c = 0xFF#8
  · subst hf
    simpa using encBytes_full [] h0 hl
  · obtain ⟨hle, hcode⟩ := eq_runCode hc hf hl
    rw [encBytes_eq_encFrom, (encFrom_shortRun h0 hle).1, hcode]

theorem WholeBlocks.isCanonicalOrClosed {y x : Bytes} (h : WholeBlocks y) (hx : decBytes y = .ok x) :
    isCanonicalOrClosed y x := by
  induction h generalizing x with
  | nil => cases hx
  | cons c lits rest hblock _ ih =>
    have ⟨hc, hl, h0⟩ := hblock
    by_cases hr : rest = []
    · subst hr
      rw [List.append_nil, decBytes_last_block hc hl h0] at hx
      cases hx
      exact .inl (by rw [encBytes_last_block hblock, List.append_nil])
    · rw [decBytes_block rest hc hl h0, if_neg hr] at hx
      obtain ⟨x', hx', rfl⟩ := DecResult.after_eq_ok hx
      by_cases hf : c = 0xFF#8
      · subst hf
        simpa using isCanonicalOrClosed_full hblock (ih hx')
      · simpa [hf] using isCanonicalOrClosed_run hblock hf (ih hx')

/-- Settles O38: what decodes splits into whole blocks, and each of them in turn keeps the form. -/
theorem decInputIsCanonicalOrClosed : Obligations.DecInputIsCanonicalOrClosed := fun _ _ hx =>
  (wholeBlocks_of_decBytes_ok hx).isCanonicalOrClosed hx

end Sys2Proof.Machine
end
